-- ==== Sys2Proof/Word.lean ====
section
/-! DEFINITION. The word types of the block: widths as 10_state.md R22, R28, R40 to R43 give them. -/

namespace Sys2Proof

/-- One element of `TXT`, and one byte of an instruction as the host lays it out. -/
abbrev Byte := BitVec 8

/-- One element of `BIT`, and one bit of a bit sequence (00_scope.md R11). -/
abbrev Bit := BitVec 1

/-- A 4-bit operation code, as written to `CMD` (30_encoding.md R110). -/
abbrev Code := BitVec 4

/-- The 21-bit data word of a codeword (00_scope.md R7, `N_DATA`). -/
abbrev Data := BitVec 21

/-- A 20-bit payload, one element of `GRP` (10_state.md R41). -/
abbrev Group := BitVec 20

/-- A 32-bit codeword or wire word (30_encoding.md R91). -/
abbrev Word32 := BitVec 32

/-- A count register: `W_CNT` = 32 bits (00_scope.md R8). -/
abbrev Count := BitVec 32

/-- One complex sample, one element of `SMP` (10_state.md R43). The spec gives no number format
for `I` and `Q` (44_fsk_modulator.md R202); an integer stands for whatever code the format gives
the value (DESIGN CHOICE, safe, log 8). -/
structure Sample where
  i : Int
  q : Int
deriving DecidableEq, Repr, Inhabited

end Sys2Proof
end

