-- ==== Sys2Proof/Syntax.lean ====
section
/-! DEFINITION. One constructor per row of spec/opcode_table.json: the eight operations and the
unassigned codes of 30_encoding.md R110 and R111, then the five wire formats of R92, R93, R98 and
R99. -/

namespace Sys2Proof

/-- An instruction of the block: a value the host writes to `CMD`, or a 32-bit wire word. -/
inductive Instr where
  /-- `RESET`, code `0x0` (45_control_ops.md R224). -/
  | reset
  /-- `BCH`, code `0x1` (40_bch_parity.md R134). -/
  | bch
  /-- `ADDRCW`, code `0x2` (41_codeword_builder.md R140). -/
  | addrcw
  /-- `MSGCW`, code `0x3` (41_codeword_builder.md R141). -/
  | msgcw
  /-- `PACKA`, code `0x4` (42_bit_packer.md R160). -/
  | packa
  /-- `PACKN`, code `0x5` (42_bit_packer.md R161). -/
  | packn
  /-- `ASM`, code `0x6` (43_frame_assembler.md R178). -/
  | asm
  /-- `MOD`, code `0x7` (44_fsk_modulator.md R204). -/
  | mod
  /-- Codes `0x8` to `0xF`, `c` the three low bits (30_encoding.md R111). -/
  | unassigned (c : BitVec 3)
  /-- Address codeword `0aaaaaaaaaaaaaaaaaaffppppppppppe` (30_encoding.md R92). -/
  | addressCw (a : BitVec 18) (f : BitVec 2) (p : BitVec 10) (e : Bit)
  /-- Message codeword `mmmmmmmmmmmmmmmmmmmm1ppppppppppe` (30_encoding.md R93). -/
  | messageCw (m : Group) (p : BitVec 10) (e : Bit)
  /-- The idle codeword `0x7A89C197` (30_encoding.md R98). -/
  | idleCw
  /-- The sync codeword `0x7CD215D8` (30_encoding.md R98). -/
  | syncCw
  /-- One word `0xAAAAAAAA` of the preamble (30_encoding.md R99). -/
  | preambleWord
deriving DecidableEq, Repr

end Sys2Proof
end

