-- ==== Sys2Proof/Machine/Words.lean ====
section
/-! DEFINITION. The 32-bit wire words: the constants of 30_encoding.md R98 and R99 and the placing of
a codeword's fields (R91 to R93). -/

namespace Sys2Proof.Machine

/-- `IDLE_CW` (00_scope.md R7, 30_encoding.md R98). -/
def idleWord : Word32 := 0x7A89C197#32

/-- `SYNC_CW` (00_scope.md R7, 30_encoding.md R98). -/
def syncWord : Word32 := 0x7CD215D8#32

/-- One 32-bit word of the preamble, `PREAMBLE_BYTE` four times (30_encoding.md R99). -/
def preambleWord : Word32 := 0xAAAAAAAA#32

/-- The pattern of an address codeword, bit 31 first: `0`, `a`, `f`, `p`, `e` (30_encoding.md R92). -/
def addressWord (a : BitVec 18) (f : BitVec 2) (p : BitVec 10) (e : Bit) : Word32 :=
  0#1 ++ a ++ f ++ p ++ e

/-- The pattern of a message codeword, bit 31 first: `m`, `1`, `p`, `e` (30_encoding.md R93). -/
def messageWord (m : Group) (p : BitVec 10) (e : Bit) : Word32 :=
  m ++ 1#1 ++ p ++ e

end Sys2Proof.Machine
end

