-- ==== Sys2Proof/WellFormed.lean ====
section
/-! DEFINITION. When an instruction is the one its own words stand for. The widths of the fields are in
their types; what is left to check is the overlap of the wire formats (30_encoding.md R114, R115):
a word belongs to the constant it equals, else to the message format when its bit 11 is 1, else to
the address format (log 14). -/

namespace Sys2Proof

/-- The check, as a Bool. An address codeword with an odd function code has bit 11 equal to 1 and is
read as a message codeword (30_encoding.md R115); the address codewords equal to the idle and sync
constants are read as those (R114), and a message word equal to the preamble word as that. -/
def Instr.wf : Instr → Bool
  | .reset => true
  | .bch => true
  | .addrcw => true
  | .msgcw => true
  | .packa => true
  | .packn => true
  | .asm => true
  | .mod => true
  | .unassigned _ => true
  | .addressCw a f p e =>
      !f.getLsbD 0 && Machine.addressWord a f p e != Machine.idleWord
        && Machine.addressWord a f p e != Machine.syncWord
  | .messageCw m p e => Machine.messageWord m p e != Machine.preambleWord
  | .idleCw => true
  | .syncCw => true
  | .preambleWord => true

/-- `i` is well formed. -/
abbrev WellFormed (i : Instr) : Prop := i.wf = true

end Sys2Proof
end

