-- ==== Sys2Proof/Decode.lean ====
section
/-! DEFINITION. From the bytes of an instruction to the instruction, and back. A value for `CMD` is one
byte, the code in its low four bits; a wire word is four bytes, the most significant first, the
order it has on the air (20_memory.md R66; log 15). -/

namespace Sys2Proof

/-- Why bytes are no instruction. -/
inductive DecodeError where
  /-- One byte whose value does not fit the four bits of `CMD` (10_state.md R23, R28). -/
  | codeTooWide
  /-- Four bytes that match no wire format: bit 31 is 1, bit 11 is 0 (30_encoding.md R92, R93). -/
  | noFormat
  /-- Neither one byte nor four. -/
  | badLength
deriving DecidableEq, Repr

/-- The operation map of 30_encoding.md R110 and R111. -/
def decodeCode (c : Code) : Instr :=
  if c = 0x0#4 then .reset
  else if c = 0x1#4 then .bch
  else if c = 0x2#4 then .addrcw
  else if c = 0x3#4 then .msgcw
  else if c = 0x4#4 then .packa
  else if c = 0x5#4 then .packn
  else if c = 0x6#4 then .asm
  else if c = 0x7#4 then .mod
  else .unassigned (c.extractLsb' 0 3)

/-- The row of a 32-bit word: a constant first, then the message flag at bit 11, then bit 31
(30_encoding.md R92, R93, R98, R99; log 14). The parity fields are taken as they stand: the block
never checks a codeword (40_bch_parity.md R131). -/
def decodeWord (w : Word32) : Except DecodeError Instr :=
  if w = Machine.idleWord then .ok .idleCw
  else if w = Machine.syncWord then .ok .syncCw
  else if w = Machine.preambleWord then .ok .preambleWord
  else if w.getLsbD 11 then
    .ok (.messageCw (w.extractLsb' 12 20) (w.extractLsb' 1 10) (w.extractLsb' 0 1))
  else if w.getLsbD 31 then .error .noFormat
  else
    .ok (.addressCw (w.extractLsb' 13 18) (w.extractLsb' 11 2) (w.extractLsb' 1 10)
      (w.extractLsb' 0 1))

/-- The instruction of a list of bytes, total on any bytes. -/
def decode : List Byte → Except DecodeError Instr
  | [b] => if b.toNat < 16 then .ok (decodeCode (b.extractLsb' 0 4)) else .error .codeTooWide
  | [b3, b2, b1, b0] => decodeWord (b3 ++ b2 ++ b1 ++ b0)
  | _ => .error .badLength

/-- The four bytes of a wire word, the most significant first. -/
def wordBytes (w : Word32) : List Byte :=
  [w.extractLsb' 24 8, w.extractLsb' 16 8, w.extractLsb' 8 8, w.extractLsb' 0 8]

/-- The operation code of an operation, none for a wire word (30_encoding.md R110, R111). -/
def Instr.code? : Instr → Option Code
  | .reset => some 0x0#4
  | .bch => some 0x1#4
  | .addrcw => some 0x2#4
  | .msgcw => some 0x3#4
  | .packa => some 0x4#4
  | .packn => some 0x5#4
  | .asm => some 0x6#4
  | .mod => some 0x7#4
  | .unassigned c => some (1#1 ++ c)
  | .addressCw _ _ _ _ => none
  | .messageCw _ _ _ => none
  | .idleCw => none
  | .syncCw => none
  | .preambleWord => none

/-- The 32 bits of an instruction: a wire word, or an operation code in the low four bits. -/
def Instr.word : Instr → Word32
  | .reset => 0x0#32
  | .bch => 0x1#32
  | .addrcw => 0x2#32
  | .msgcw => 0x3#32
  | .packa => 0x4#32
  | .packn => 0x5#32
  | .asm => 0x6#32
  | .mod => 0x7#32
  | .unassigned c => (1#1 ++ c).setWidth 32
  | .addressCw a f p e => Machine.addressWord a f p e
  | .messageCw m p e => Machine.messageWord m p e
  | .idleCw => Machine.idleWord
  | .syncCw => Machine.syncWord
  | .preambleWord => Machine.preambleWord

/-- The bytes of an instruction, as `decode` reads them. -/
def encode (i : Instr) : List Byte :=
  match i.code? with
  | some c => [c.setWidth 8]
  | none => wordBytes i.word

/-- The bytes of an instruction whose bits are `w`, as the opcode table numbers them. A row of at
most eight bits is a value for `CMD`; every other row is a 32-bit word whose bits above `nbits`
are 0. -/
def tableBytes (nbits w : Nat) : List Byte :=
  if nbits ≤ 8 then [BitVec.ofNat 8 w] else wordBytes (BitVec.ofNat 32 w)

/-- The instruction the decoder reads from the bits `w` of a row of `nbits` bits. -/
def decodeTableWord (nbits w : Nat) : Option Instr :=
  match decode (tableBytes nbits w) with
  | .ok i => some i
  | .error _ => none

end Sys2Proof
end

