-- ==== Sys2Proof/Machine/Bits.lean ====
section
/-! DEFINITION. Bits of words in stream order, parity, and division over GF(2) (00_scope.md R10, R12,
R14). -/

namespace Sys2Proof.Machine

/-- `bits_msb(v, n)` for an `n`-bit `v`: most significant bit first (00_scope.md R12). -/
def bitsMsb (n : Nat) (v : BitVec n) : List Bit :=
  (List.range n).map fun k => v.extractLsb' (n - 1 - k) 1

/-- `bits_lsb(v, n)` for an `n`-bit `v`: least significant bit first (00_scope.md R12). -/
def bitsLsb (n : Nat) (v : BitVec n) : List Bit :=
  (List.range n).map fun k => v.extractLsb' k 1

/-- The number whose binary digits, most significant first, are `bs`. -/
def numMsb (bs : List Bit) : Nat :=
  bs.foldl (fun acc b => 2 * acc + b.toNat) 0

/-- `word_msb(bs)` as an `n`-bit value, `n` the length of `bs` (00_scope.md R12). -/
def wordMsb (n : Nat) (bs : List Bit) : BitVec n :=
  BitVec.ofNat n (numMsb bs)

/-- The number of 1 bits among the `k` low bits of `v`. -/
def popcountLow (n : Nat) (v : BitVec n) : Nat → Nat
  | 0 => 0
  | k + 1 => popcountLow n v k + (v.getLsbD k).toNat

/-- `popcount(v)` (00_scope.md R10). -/
def popcount (n : Nat) (v : BitVec n) : Nat := popcountLow n v n

/-- `parity(v)`, the popcount modulo 2 (00_scope.md R10). -/
def parity (n : Nat) (v : BitVec n) : Bit := BitVec.ofNat 1 (popcount n v % 2)

/-- `GEN`, the generator polynomial (00_scope.md R7), seen in 31 bits. -/
def generator : BitVec 31 := 0x769#31

/-- One round of `polymod`: clears bit `i` by a shifted generator if it is set (00_scope.md R14). -/
def clearBit (r : BitVec 31) (i : Nat) : BitVec 31 :=
  if r.getLsbD i then r ^^^ (generator <<< (i - 10)) else r

/-- The rounds of `polymod` for the bits `k + 9` down to 10. -/
def clearBits : Nat → BitVec 31 → BitVec 31
  | 0, r => r
  | k + 1, r => clearBits k (clearBit r (k + 10))

/-- `polymod(a, 0x769)` (00_scope.md R14). -/
def polymod (a : BitVec 31) : BitVec 10 := (clearBits 21 a).extractLsb' 0 10

end Sys2Proof.Machine
end

