-- ==== Sys2Proof/Config.lean ====
section
/-! DEFINITION. What an implementation fixes (00_scope.md R8) and the free values the spec leaves
open (93_implementation_defined.md, U list). A constant without a body is opaque: no proof can see
which value it has, so a claim about it holds for every value. -/

namespace Sys2Proof.Config

/-- `MAX_CHARS`, the largest `LEN` a pack operation accepts: the spec's default (00_scope.md R8,
92_eei_decisions.md D5; log 10). -/
def maxChars : Nat := 80

/-- `MAX_GRP` = ceil(7 * MAX_CHARS / 20) (00_scope.md R8). -/
def maxGrp : Nat := (7 * maxChars + 19) / 20

/-- `MAX_BITS` = 576 + 544 * ceil((14 + 1 + MAX_GRP) / 16) (00_scope.md R8). -/
def maxBits : Nat := 576 + 544 * ((14 + 1 + maxGrp + 15) / 16)

/-- `MAX_SAMP`, open in the spec, which lets a model take it unbounded (00_scope.md R8): here the
largest number the 32-bit `NSAMP` can hold (DESIGN CHOICE, log 9). -/
def maxSamp : Nat := 2 ^ 32 - 1

/-- `IQ`, the sample of a phase numerator and a denominator: a function the spec leaves open
(44_fsk_modulator.md R202, U12; log 8). -/
opaque iq : Nat → Nat → Sample

/-- Which five distinct codes of `0xA` to `0xF` the non-digit numeric symbols have
(30_encoding.md R108, U8; log 11): one of the 720 choices, read by `NumTable.ofPick`. -/
opaque numPick : Fin 720

/-- What `EINFO` holds when the number it is to receive has more than 32 bits: no rule states it
(log 12). -/
opaque einfoWide : Nat → Count

/-! The values after a hardware reset of what 10_state.md R50 calls unspecified (R52, U2; log 5 and
log 6). The first argument counts hardware resets, the second of a memory's is the element. -/

opaque resetD : Nat → Data
opaque resetP : Nat → BitVec 10
opaque resetRic : Nat → BitVec 21
opaque resetFunc : Nat → BitVec 2
opaque resetPay : Nat → Group
opaque resetCw : Nat → Word32
opaque resetType : Nat → BitVec 1
opaque resetCenter : Nat → BitVec 32
opaque resetBaud : Nat → BitVec 32
opaque resetDev : Nat → BitVec 32
opaque resetInvert : Nat → Bit
opaque resetFs : Nat → BitVec 32
opaque resetPower : Nat → BitVec 32
opaque resetTxt : Nat → Nat → Byte
opaque resetGrp : Nat → Nat → Group
opaque resetBit : Nat → Nat → Bit
opaque resetSmp : Nat → Nat → Sample

end Sys2Proof.Config
end

