-- ==== Sys2Proof/Machine/State.lean ====
section
/-! DEFINITION. The state of the block and of its host, as plain data (10_state.md), the reasons a run
of the model can stop, and the state after a hardware reset (10_state.md R50). -/

namespace Sys2Proof.Machine

/-- `STATUS.STATE`, the block's stand-in for a program counter (10_state.md R25, R26, R29). -/
inductive SeqState where
  | idle
  | busy
  | error
deriving DecidableEq, Repr

/-- The six `CFGV` bits of `STATUS` (10_state.md R29). -/
structure CfgValid where
  center : Bool
  baud : Bool
  dev : Bool
  invert : Bool
  fs : Bool
  power : Bool
deriving DecidableEq, Repr

/-- A memory: the elements written since the hardware reset, as pairs of an index and a value, indices
strictly rising. An index that is not listed holds its free reset value (log 6). `TXT`, whose
elements are bytes, is a list of `Host.Cell`. -/
abbrev Mem (α : Type) := List (Nat × α)

/-- One move of the host, of the block or of the reset input: the lines of a host program
(30_encoding.md R118, R119), the turn in which a busy block ends its operation, and the hardware
reset (70_reset_and_hazards.md R275). Numbers are what the host puts on the interface, so that a
value too wide for its register can be written down and refused (10_state.md R23). -/
inductive HostMove where
  /-- `OP`: the bytes of an instruction; the host waits until the block is no longer busy. Four bytes
  are a wire word the host places into `BIT` (log 13). -/
  | instr (bytes : List Byte)
  /-- `WR <register>, <value>`, the register by its number. -/
  | wr (reg value : Nat)
  /-- `WRM <space>[<index>], <value>`. -/
  | wrm (space index value : Nat)
  /-- `RD <register>`. -/
  | rd (reg : Nat)
  /-- `RDM <space>[<index>]`. -/
  | rdm (space index : Nat)
  /-- `TXT "<characters>"`. -/
  | txt (chars : List Byte)
  /-- `ENCODE` (45_control_ops.md R226). -/
  | encode
  /-- The block's turn: an operation in progress ends (log 3). -/
  | blockTurn
  /-- The hardware reset input. -/
  | hardReset
deriving DecidableEq, Repr

/-- What the last host read returned (log 16). -/
inductive ReadData where
  | none
  | word (v : BitVec 32)
  | sample (v : Sample)
deriving DecidableEq, Repr

/-- The whole state. The last three fields are the model's own. -/
structure State where
  /-- `STATUS.STATE` -/
  seq : SeqState
  /-- `STATUS.CFGV` -/
  cfgv : CfgValid
  /-- `ECODE` -/
  ecode : BitVec 4
  /-- `EINFO` -/
  einfo : Count
  /-- `EOP` -/
  eop : Code
  /-- `D` -/
  d : Data
  /-- `P` -/
  p : BitVec 10
  /-- `RIC` -/
  ric : BitVec 21
  /-- `FUNC` -/
  func : BitVec 2
  /-- `PAY` -/
  pay : Group
  /-- `CW` -/
  cw : Word32
  /-- `TYPE` -/
  mtype : BitVec 1
  /-- `LEN` -/
  len : Count
  /-- `NGRP` -/
  ngrp : Count
  /-- `NBITS` -/
  nbits : Count
  /-- `NSAMP` -/
  nsamp : Count
  /-- `CFG_CENTER` -/
  cfgCenter : BitVec 32
  /-- `CFG_BAUD` -/
  cfgBaud : BitVec 32
  /-- `CFG_DEV` -/
  cfgDev : BitVec 32
  /-- `CFG_INVERT` -/
  cfgInvert : Bit
  /-- `CFG_FS` -/
  cfgFs : BitVec 32
  /-- `CFG_POWER` -/
  cfgPower : BitVec 32
  /-- `TXT` -/
  txt : List Host.Cell
  /-- `GRP` -/
  grp : Mem Group
  /-- `BIT` -/
  bit : Mem Bit
  /-- `SMP` -/
  smp : Mem Sample
  /-- `PHASE`, hidden (10_state.md R44) -/
  phase : Nat
  /-- `CUR_OP`, hidden, present only while busy (10_state.md R45) -/
  curOp : Option Code
  /-- how many hardware resets came after the first: it picks the free values (log 18) -/
  resets : Nat
  /-- what the last host read returned (log 16) -/
  rdata : ReadData
  /-- the moves still to come, the next one first (log 1) -/
  prog : List HostMove
deriving DecidableEq, Repr

/-- The reasons a run stops at an access to a place the spec says does not exist
(93_implementation_defined.md U4; safe: the spec gives the access no meaning; log 17). The block's own
errors are no faults of the model: they are next states (60_exceptions.md R246). -/
inductive Fault where
  /-- Raised by a host access to a register number 10_state.md does not list. Safe. -/
  | noSuchRegister (reg : Nat)
  /-- Raised by a host access to a space id other than 0 to 3. Safe. -/
  | noSuchSpace (space : Nat)
  /-- Raised by a host access to an index at or above the space's capacity, and by a wire word that does
  not fit below `MAX_BITS` (20_memory.md R61). Safe. -/
  | noSuchElement (space index : Nat)
deriving DecidableEq, Repr

/-- The reasons the model gives a move no meaning. -/
inductive Refusal where
  /-- Raised by an arm of `exec` for an instruction without a meaning yet. Safe. -/
  | notModelled (mnemonic : String)
  /-- Raised by a host access other than a read of `STATUS` while the block is busy
  (70_reset_and_hazards.md R283, U1). Safe. -/
  | hostAccessWhileBusy
  /-- Raised by a host write of a value wider than the register or element (10_state.md R23, U5). Safe. -/
  | valueTooWide (value : Nat)
  /-- Raised by the host's presenting bytes that are no row of the opcode table. Safe. -/
  | notAnInstruction (bytes : List Byte)
deriving DecidableEq, Repr

/-- The state after hardware reset number `n`: what 10_state.md R50 states, and for each register it calls
unspecified a free value (R52; log 5). The memories list nothing. -/
def State.afterReset (n : Nat) : State where
  seq := .idle
  cfgv := ⟨false, false, false, false, false, false⟩
  ecode := 0
  einfo := 0
  eop := 0
  d := Config.resetD n
  p := Config.resetP n
  ric := Config.resetRic n
  func := Config.resetFunc n
  pay := Config.resetPay n
  cw := Config.resetCw n
  mtype := Config.resetType n
  len := 0
  ngrp := 0
  nbits := 0
  nsamp := 0
  cfgCenter := Config.resetCenter n
  cfgBaud := Config.resetBaud n
  cfgDev := Config.resetDev n
  cfgInvert := Config.resetInvert n
  cfgFs := Config.resetFs n
  cfgPower := Config.resetPower n
  txt := []
  grp := []
  bit := []
  smp := []
  phase := 0
  curOp := none
  resets := n
  rdata := .none
  prog := []

/-- The state right after the first hardware reset, with no host move waiting (10_state.md R50). -/
def State.reset : State := State.afterReset 0

end Sys2Proof.Machine
end

