-- ==== Sys2Proof/Machine/Ops.lean ====
section
/-! DEFINITION. The named operations over memories and registers (20_memory.md), the start of an
operation (45_control_ops.md R220), error entry (60_exceptions.md R246) and the return from an error
(R249). -/

namespace Sys2Proof.Machine

/-! ## Memories -/

/-- The listed element at `i`, if there is one. -/
def Mem.get? {α : Type} : Mem α → Nat → Option α
  | [], _ => none
  | (j, v) :: m, i => if j = i then some v else Mem.get? m i

/-- `MemRead`: the listed element, else the free value of the element (20_memory.md R61, R62). -/
def Mem.read {α : Type} (free : Nat → α) (m : Mem α) (i : Nat) : α :=
  (Mem.get? m i).getD (free i)

/-- `MemWrite` of one element (20_memory.md R61), keeping the indices in rising order. -/
def Mem.write {α : Type} : Mem α → Nat → α → Mem α
  | [], i, v => [(i, v)]
  | (j, w) :: m, i, v =>
    if i < j then (i, v) :: (j, w) :: m
    else if i = j then (i, v) :: m
    else (j, w) :: Mem.write m i v

/-- The cells of a list of values from index `b` on. -/
def Mem.cells {α : Type} : Nat → List α → Mem α
  | _, [] => []
  | b, v :: vs => (b, v) :: Mem.cells (b + 1) vs

/-- `MemWrite` of `vs` at the indices `b`, `b + 1`, ...: what an operation's loop of writes leaves. -/
def Mem.writeBlock {α : Type} (m : Mem α) (b : Nat) (vs : List α) : Mem α :=
  m.filter (fun c => c.1 < b) ++ Mem.cells b vs
    ++ m.filter (fun c => b + vs.length ≤ c.1)

/-- Indices strictly rise, start at `lo` or above and stay below `cap`. -/
def Mem.wfFrom {α : Type} (cap : Nat) : Nat → Mem α → Bool
  | _, [] => true
  | lo, (i, _) :: m => decide (lo ≤ i) && decide (i < cap) && Mem.wfFrom cap (i + 1) m

/-- The canonical form of a memory of `cap` elements: rising indices, all of them elements. -/
def Mem.wf {α : Type} (cap : Nat) (m : Mem α) : Bool := Mem.wfFrom cap 0 m

/-- `TXT[i]` (10_state.md R40). -/
def State.txtAt (s : State) (i : Nat) : Byte := Mem.read (Config.resetTxt s.resets) s.txt i

/-- `GRP[i]` (10_state.md R41). -/
def State.grpAt (s : State) (i : Nat) : Group := Mem.read (Config.resetGrp s.resets) s.grp i

/-- `BIT[i]` (10_state.md R42). -/
def State.bitAt (s : State) (i : Nat) : Bit := Mem.read (Config.resetBit s.resets) s.bit i

/-- `SMP[i]` (10_state.md R43). -/
def State.smpAt (s : State) (i : Nat) : Sample := Mem.read (Config.resetSmp s.resets) s.smp i

/-- `[MemRead(TXT, i) for i in 0 .. LEN-1]`. -/
def State.text (s : State) : List Byte := (List.range s.len.toNat).map s.txtAt

/-- `[MemRead(GRP, k) for k in 0 .. NGRP-1]`. -/
def State.groupList (s : State) : List Group := (List.range s.ngrp.toNat).map s.grpAt

/-- `[MemRead(BIT, j) for j in 0 .. NBITS-1]`. -/
def State.bitList (s : State) : List Bit := (List.range s.nbits.toNat).map s.bitAt

/-- The word view `WORD(w)` of `BIT` (10_state.md R42). -/
def State.wordAt (s : State) (w : Nat) : Word32 :=
  wordMsb 32 ((List.range 32).map fun k => s.bitAt (32 * w + k))

/-! ## Errors -/

/-- The error causes of 60_exceptions.md R236. -/
inductive ErrCode where
  | len
  | char
  /-- `E_ENCODE`: no operation raises it (60_exceptions.md R240). -/
  | encode
  | cfg
  | cap
  | op
deriving DecidableEq, Repr

/-- The number an error leaves in `ECODE` (60_exceptions.md R236). -/
def ErrCode.number : ErrCode → BitVec 4
  | .len => 1
  | .char => 2
  | .encode => 3
  | .cfg => 4
  | .cap => 5
  | .op => 6

/-- A number as it stands in `EINFO`: as it is where 32 bits hold it, else a free value (log 12). -/
def einfoOf (n : Nat) : Count :=
  if n < 2 ^ 32 then BitVec.ofNat 32 n else Config.einfoWide n

/-- Error entry, `raise E(info)` inside operation `c`: this and nothing else (60_exceptions.md R246). -/
def State.raise (s : State) (c : Code) (e : ErrCode) (info : Nat) : State :=
  { s with ecode := e.number, einfo := einfoOf info, eop := c, seq := .error }

/-- The `RESET` operation, the only return from an error short of a hardware reset
(45_control_ops.md R224, 60_exceptions.md R249). -/
def State.softReset (s : State) : State :=
  { s with
    seq := .idle
    ecode := 0, einfo := 0, eop := 0
    len := 0, ngrp := 0, nbits := 0, nsamp := 0
    phase := 0 }

/-- The hardware reset input: every piece of the block's state as 10_state.md R50 says, in every state,
busy included (70_reset_and_hazards.md R275, R277). The host's moves and the datum it last read are
the host's own and stay. -/
def State.hardReset (s : State) : State :=
  { State.afterReset (s.resets + 1) with rdata := s.rdata, prog := s.prog }

/-! ## Starting an operation -/

/-- What the pseudocode of an operation ends in: its results in place, or `raise E(info)`. -/
inductive OpResult where
  | done (t : State)
  | err (e : ErrCode) (info : Nat)

/-- Operation `c` from its start to its end in one step (45_control_ops.md R220, R221; log 2): in `IDLE`
it runs; in `ERROR` the write of `CMD` changes nothing (60_exceptions.md R248); in `BUSY` the host
may not write (70_reset_and_hazards.md R283). -/
def runOp (c : Code) (body : State → OpResult) (s : State) : Host.Outcome State Fault Refusal :=
  match s.seq with
  | .busy => .refused .hostAccessWhileBusy
  | .error => .next s
  | .idle =>
    match body s with
    | .done t => .next t
    | .err e info => .next (s.raise c e info)

/-- An access of the host, which it may make only while the block is not busy (45_control_ops.md R222,
70_reset_and_hazards.md R283). -/
def hostAccess (act : State → Host.Outcome State Fault Refusal) (s : State) :
    Host.Outcome State Fault Refusal :=
  match s.seq with
  | .busy => .refused .hostAccessWhileBusy
  | .idle => act s
  | .error => act s

end Sys2Proof.Machine
end

