-- ==== Sys2Proof/Machine/Bch.lean ====
section
/-! DEFINITION. The BCH parity unit (40_bch_parity.md). -/

namespace Sys2Proof.Machine

/-- `bch_parity(d)`: the remainder of `d * x^10` by the generator (40_bch_parity.md R130). -/
def bchParity (d : Data) : BitVec 10 := polymod (d.setWidth 31 <<< 10)

/-- `(d << 10) | bch_parity(d)`, the 31-bit BCH(31,21) word (30_encoding.md R96). -/
def bchWord (d : Data) : BitVec 31 := d.setWidth 31 <<< 10 ||| (bchParity d).setWidth 31

/-- `BCH` (40_bch_parity.md R134). -/
def execBch (s : State) : Host.Outcome State Fault Refusal :=
  runOp 0x1#4 (fun s => .done { s with p := bchParity s.d }) s

end Sys2Proof.Machine
end

