-- ==== Sys2Proof/Machine/Codeword.lean ====
section
/-! DEFINITION. The codeword builder (41_codeword_builder.md; 30_encoding.md R91 to R96). -/

namespace Sys2Proof.Machine

/-- `codeword(d)` = `(d << 11) | (p << 1) | e` (30_encoding.md R96, 90_conflicts.md C1). -/
def codeword (d : Data) : Word32 :=
  d.setWidth 32 <<< 11 ||| (bchParity d).setWidth 32 <<< 1
    ||| (parity 31 (bchWord d)).setWidth 32

/-- The data word of an address codeword, `((ric >> 3) << 2) | func` (41_codeword_builder.md R140). -/
def addressData (ric : BitVec 21) (func : BitVec 2) : Data :=
  (ric >>> 3) <<< 2 ||| func.setWidth 21

/-- The data word of a message codeword, `(pay << 1) | 1` (41_codeword_builder.md R141). -/
def messageData (pay : Group) : Data := pay.setWidth 21 <<< 1 ||| 1#21

/-- `address_codeword(ric, func)` (41_codeword_builder.md R140). -/
def addressCodeword (ric : BitVec 21) (func : BitVec 2) : Word32 := codeword (addressData ric func)

/-- `message_codeword(pay)` (41_codeword_builder.md R141). -/
def messageCodeword (pay : Group) : Word32 := codeword (messageData pay)

/-- `ADDRCW` (41_codeword_builder.md R140). -/
def execAddrcw (s : State) : Host.Outcome State Fault Refusal :=
  runOp 0x2#4 (fun s => .done { s with cw := addressCodeword s.ric s.func }) s

/-- `MSGCW` (41_codeword_builder.md R141). -/
def execMsgcw (s : State) : Host.Outcome State Fault Refusal :=
  runOp 0x3#4 (fun s => .done { s with cw := messageCodeword s.pay }) s

end Sys2Proof.Machine
end

