-- ==== Sys2Proof/Machine/Assembler.lean ====
section
/-! DEFINITION. The POCSAG frame assembler (43_frame_assembler.md; 30_encoding.md R99 to R102). -/

namespace Sys2Proof.Machine

/-- `frame(ric)` = `ric & 0x7` (30_encoding.md R102). -/
def frame (ric : BitVec 21) : Nat := (ric &&& 0x7#21).toNat

/-- `q0`, the slot of the address codeword (43_frame_assembler.md R177). -/
def firstSlot (ric : BitVec 21) : Nat := 2 * frame ric

/-- `message_cws` (43_frame_assembler.md R176). -/
def messageCws (ric : BitVec 21) (func : BitVec 2) (g : List Group) : List Word32 :=
  addressCodeword ric func :: g.map messageCodeword

/-- The codewords of all slots, idle codewords before the address and up to the end of the last batch
(43_frame_assembler.md R177, R180). -/
def slots (ric : BitVec 21) (func : BitVec 2) (g : List Group) : List Word32 :=
  let filled := List.replicate (firstSlot ric) idleWord ++ messageCws ric func g
  filled ++ List.replicate ((16 - filled.length % 16) % 16) idleWord

/-- The first `n` batches of a list of slots: a sync codeword and sixteen slots each
(30_encoding.md R100, 43_frame_assembler.md R180). -/
def batches : Nat → List Word32 → List Word32
  | 0, _ => []
  | n + 1, ws => syncWord :: ws.take 16 ++ batches n (ws.drop 16)

/-- The preamble, `1, 0` 288 times (30_encoding.md R99). -/
def preamble : List Bit := (List.replicate 288 [1#1, 0#1]).flatten

/-- `transmission` (43_frame_assembler.md R180). -/
def transmission (ric : BitVec 21) (func : BitVec 2) (g : List Group) : List Bit :=
  let ws := slots ric func g
  preamble ++ (batches (ws.length / 16) ws).flatMap (bitsMsb 32)

/-- `ASM` (43_frame_assembler.md R178). -/
def assemble (s : State) : OpResult :=
  if s.ngrp.toNat > Config.maxGrp then .err .cap s.ngrp.toNat
  else
    let out := transmission s.ric s.func s.groupList
    .done { s with bit := Mem.writeBlock s.bit 0 out, nbits := BitVec.ofNat 32 out.length }

/-- `ASM` (43_frame_assembler.md R178). -/
def execAsm (s : State) : Host.Outcome State Fault Refusal := runOp 0x6#4 assemble s

end Sys2Proof.Machine
end

