-- ==== Sys2Proof/Machine/Control.lean ====
section
/-! DEFINITION. The control operations: `RESET` (45_control_ops.md R224) and the unassigned codes
(30_encoding.md R111, 60_exceptions.md R242). -/

namespace Sys2Proof.Machine

/-- `RESET`, accepted in `IDLE` and in `ERROR` (45_control_ops.md R224). -/
def execReset (s : State) : Host.Outcome State Fault Refusal :=
  hostAccess (fun s => .next s.softReset) s

/-- A code from `0x8` to `0xF`, `c` its low three bits: `E_OP` with the code in `EINFO` and `EOP`
(60_exceptions.md R242). -/
def execUnassigned (c : BitVec 3) (s : State) : Host.Outcome State Fault Refusal :=
  runOp (1#1 ++ c) (fun _ => .err .op (1#1 ++ c).toNat) s

end Sys2Proof.Machine
end

