-- ==== Sys2Proof/Machine/Modulator.lean ====
section
/-! DEFINITION. The 2-level FSK modulator (44_fsk_modulator.md). -/

namespace Sys2Proof.Machine

/-- `s(b)`, the sign of the frequency offset: -1 when `b ^ CFG_INVERT` is 1 (44_fsk_modulator.md R197). -/
def toneSign (invert b : Bit) : Int := if b ^^^ invert = 1#1 then -1 else 1

/-- `advance(phase, b)` (44_fsk_modulator.md R203). -/
def advance (fs dev : Nat) (invert : Bit) (phase : Nat) (b : Bit) : Nat :=
  (((phase : Int) + toneSign invert b * (dev : Int)) % (fs : Int)).toNat

/-- The bit of each sample: every bit `SPB` times (44_fsk_modulator.md R199). -/
def sampleBits (spb : Nat) (bs : List Bit) : List Bit := bs.flatMap (List.replicate spb)

/-- The phase of each sample, taken before the advance (44_fsk_modulator.md R203). -/
def phases (fs dev : Nat) (invert : Bit) : Nat → List Bit → List Nat
  | _, [] => []
  | ph, b :: bs => ph :: phases fs dev invert (advance fs dev invert ph b) bs

/-- The phase after the last sample. -/
def lastPhase (fs dev : Nat) (invert : Bit) (ph : Nat) (bs : List Bit) : Nat :=
  bs.foldl (advance fs dev invert) ph

/-- The number of the first configuration check that fails, none for a valid configuration
(44_fsk_modulator.md R198). -/
def configCheck (s : State) : Option Nat :=
  if !(s.cfgv.baud && s.cfgv.dev && s.cfgv.invert && s.cfgv.fs) then some 1
  else if s.cfgBaud.toNat = 0 then some 2
  else if s.cfgFs.toNat = 0 then some 3
  else if s.cfgFs.toNat % s.cfgBaud.toNat ≠ 0 then some 4
  else none

/-- `SPB` (44_fsk_modulator.md R196). -/
def State.spb (s : State) : Nat := s.cfgFs.toNat / s.cfgBaud.toNat

/-- `MOD` with a sample memory of `cap` elements (44_fsk_modulator.md R204). -/
def modulate (cap : Nat) (s : State) : OpResult :=
  match configCheck s with
  | some k => .err .cfg k
  | none =>
    if s.nbits.toNat > Config.maxBits then .err .cap s.nbits.toNat
    else if s.nbits.toNat * s.spb > cap then .err .cap (s.nbits.toNat * s.spb)
    else
      let fs := s.cfgFs.toNat
      let dev := s.cfgDev.toNat
      let bs := sampleBits s.spb s.bitList
      .done { s with
        smp := Mem.writeBlock s.smp 0 ((phases fs dev s.cfgInvert 0 bs).map fun ph => Config.iq ph fs)
        nsamp := BitVec.ofNat 32 (s.nbits.toNat * s.spb)
        phase := lastPhase fs dev s.cfgInvert 0 bs }

/-- `MOD` (44_fsk_modulator.md R204). -/
def execMod (s : State) : Host.Outcome State Fault Refusal :=
  runOp 0x7#4 (modulate Config.maxSamp) s

end Sys2Proof.Machine
end

