-- ==== Sys2Proof/Machine/Packer.lean ====
section
/-! DEFINITION. The message bit-packer (42_bit_packer.md; alphabets of 30_encoding.md R105 to R108). -/

namespace Sys2Proof.Machine

/-- The 4-bit codes of the five non-digit numeric symbols (30_encoding.md R108). -/
structure NumTable where
  u : BitVec 4
  space : BitVec 4
  hyphen : BitVec 4
  close : BitVec 4
  opening : BitVec 4
deriving DecidableEq, Repr

/-- The table of the published character set, the default of the open parameter (30_encoding.md R108,
93_implementation_defined.md G1). -/
def NumTable.published : NumTable := ⟨0xB, 0xC, 0xD, 0xE, 0xF⟩

/-- The table of choice `n`: five times a code is taken out of those of `0xA` to `0xF` that are left, so
that the five are distinct and every such table is the table of one `n` below 720 (log 11). -/
def NumTable.ofPick (n : Nat) : NumTable :=
  let p0 : List (BitVec 4) := [0xA, 0xB, 0xC, 0xD, 0xE, 0xF]
  let p1 := p0.eraseIdx (n % 6)
  let p2 := p1.eraseIdx (n / 6 % 5)
  let p3 := p2.eraseIdx (n / 30 % 4)
  let p4 := p3.eraseIdx (n / 120 % 3)
  ⟨p0.getD (n % 6) 0, p1.getD (n / 6 % 5) 0, p2.getD (n / 30 % 4) 0, p3.getD (n / 120 % 3) 0,
    p4.getD (n / 360 % 2) 0⟩

/-- `NUMCODE` of this implementation: five distinct codes in `0xA` to `0xF`, which five is free (log 11). -/
def numTable : NumTable := NumTable.ofPick Config.numPick.val

/-- The `num4` code of a character under a table, none outside the numeric alphabet
(30_encoding.md R106, R108). -/
def numCode? (t : NumTable) (c : Byte) : Option (BitVec 4) :=
  if 0x30#8 ≤ c ∧ c ≤ 0x39#8 then some ((c - 0x30#8).setWidth 4)
  else if c = 0x55#8 then some t.u
  else if c = 0x20#8 then some t.space
  else if c = 0x2D#8 then some t.hyphen
  else if c = 0x5D#8 then some t.close
  else if c = 0x5B#8 then some t.opening
  else none

/-- The alphanumeric alphabet, `0x20` to `0x7E` (30_encoding.md R105). -/
def isAlpha (c : Byte) : Bool := decide (0x20#8 ≤ c) && decide (c ≤ 0x7E#8)

/-- The numeric alphabet: digits, space, `U`, `-`, `[`, `]` (30_encoding.md R106). -/
def isNumeric (c : Byte) : Bool :=
  (decide (0x30#8 ≤ c) && decide (c ≤ 0x39#8))
    || c == 0x20#8 || c == 0x55#8 || c == 0x2D#8 || c == 0x5B#8 || c == 0x5D#8

/-- The seven stream bits of a character (42_bit_packer.md R155). -/
def alphaBits (c : Byte) : List Bit := bitsLsb 7 (c.setWidth 7)

/-- The four stream bits of a character of the numeric alphabet (42_bit_packer.md R156). -/
def numBits (t : NumTable) (c : Byte) : List Bit := bitsLsb 4 ((numCode? t c).getD 0)

/-- `stream_alpha` (42_bit_packer.md R155). -/
def streamAlpha (text : List Byte) : List Bit := text.flatMap alphaBits

/-- `stream_num` (42_bit_packer.md R156). -/
def streamNum (t : NumTable) (text : List Byte) : List Bit := text.flatMap (numBits t)

/-- `pad`: 1 bits up to a multiple of 20 (42_bit_packer.md R158). -/
def pad (bs : List Bit) : List Bit := bs ++ List.replicate ((20 - bs.length % 20) % 20) 1#1

/-- The first `k` groups of a stream (42_bit_packer.md R157). -/
def firstGroups : Nat → List Bit → List Group
  | 0, _ => []
  | k + 1, bs => wordMsb 20 (bs.take 20) :: firstGroups k (bs.drop 20)

/-- `groups` (42_bit_packer.md R157). -/
def groups (bs : List Bit) : List Group := firstGroups (bs.length / 20) bs

/-- What `PACKA` and `PACKN` share (42_bit_packer.md R160, R161): the length is checked first, then the
characters in index order (R163), then the groups are written. -/
def pack (legal : Byte → Bool) (stream : List Byte → List Bit) (s : State) : OpResult :=
  if s.len.toNat > Config.maxChars then .err .len s.len.toNat
  else
    match s.text.findIdx? (fun c => !legal c) with
    | some i => .err .char i
    | none =>
      let g := groups (pad (stream s.text))
      .done { s with grp := Mem.writeBlock s.grp 0 g, ngrp := BitVec.ofNat 32 g.length }

/-- `PACKA` (42_bit_packer.md R160). -/
def execPacka (s : State) : Host.Outcome State Fault Refusal :=
  runOp 0x4#4 (pack isAlpha streamAlpha) s

/-- `PACKN` (42_bit_packer.md R161). -/
def execPackn (s : State) : Host.Outcome State Fault Refusal :=
  runOp 0x5#4 (pack isNumeric (streamNum numTable)) s

end Sys2Proof.Machine
end

