-- ==== Sys2Proof/Machine/Wire.lean ====
section
/-! DEFINITION. The five wire formats of the opcode table. The block is never given such a word as an
operation (30_encoding.md R110); the one thing the interface lets a word do is stand in `BIT`, where
`ASM` puts it and where the host may put it too (10_state.md R42, 45_control_ops.md R222 and R227).
A wire word as an instruction is the host's doing so with the next 32 elements (DESIGN CHOICE,
log 13). -/

namespace Sys2Proof.Machine

/-- The host places `w` as the next word of `BIT`, most significant bit first (20_memory.md R66), and
counts its 32 bits into `NBITS`: writes of 32 elements and of one register, all of which the host may
make while the block is not busy. A word that would pass `MAX_BITS` names an element that does not
exist (20_memory.md R61), and nothing is written. -/
def placeWord (w : Word32) (s : State) : Host.Outcome State Fault Refusal :=
  hostAccess
    (fun s =>
      if s.nbits.toNat + 32 ≤ Config.maxBits then
        .next { s with
          bit := Mem.writeBlock s.bit s.nbits.toNat (bitsMsb 32 w)
          nbits := s.nbits + 32 }
      else .fault (.noSuchElement 2 (max s.nbits.toNat Config.maxBits)))
    s

/-- An address codeword (30_encoding.md R92). -/
def execAddressCw (a : BitVec 18) (f : BitVec 2) (p : BitVec 10) (e : Bit) (s : State) :
    Host.Outcome State Fault Refusal :=
  placeWord (addressWord a f p e) s

/-- A message codeword (30_encoding.md R93). -/
def execMessageCw (m : Group) (p : BitVec 10) (e : Bit) (s : State) :
    Host.Outcome State Fault Refusal :=
  placeWord (messageWord m p e) s

/-- The idle codeword (30_encoding.md R98). -/
def execIdleCw (s : State) : Host.Outcome State Fault Refusal := placeWord idleWord s

/-- The sync codeword (30_encoding.md R98). -/
def execSyncCw (s : State) : Host.Outcome State Fault Refusal := placeWord syncWord s

/-- One word of the preamble (30_encoding.md R99). -/
def execPreambleWord (s : State) : Host.Outcome State Fault Refusal := placeWord preambleWord s

end Sys2Proof.Machine
end

