-- ==== Sys2Proof/Machine/Dispatch.lean ====
section
/-! DEFINITION. One arm per constructor of Instr (30_encoding.md R110, R111; the wire formats, log 13). -/

namespace Sys2Proof.Machine

def exec (i : Instr) (s : State) : Host.Outcome State Fault Refusal :=
  match i with
  | .reset => Sys2Proof.Machine.execReset s
  | .bch => Sys2Proof.Machine.execBch s
  | .addrcw => Sys2Proof.Machine.execAddrcw s
  | .msgcw => Sys2Proof.Machine.execMsgcw s
  | .packa => Sys2Proof.Machine.execPacka s
  | .packn => Sys2Proof.Machine.execPackn s
  | .asm => Sys2Proof.Machine.execAsm s
  | .mod => Sys2Proof.Machine.execMod s
  | .unassigned c => Sys2Proof.Machine.execUnassigned c s
  | .addressCw a f p e => Sys2Proof.Machine.execAddressCw a f p e s
  | .messageCw m p e => Sys2Proof.Machine.execMessageCw m p e s
  | .idleCw => Sys2Proof.Machine.execIdleCw s
  | .syncCw => Sys2Proof.Machine.execSyncCw s
  | .preambleWord => Sys2Proof.Machine.execPreambleWord s

end Sys2Proof.Machine
end

