-- ==== Sys2Proof/Machine/Flags.lean ====
section
/-! DEFINITION. The fields of `STATUS` as one word (10_state.md R29). The block has no arithmetic flags
(R27). -/

namespace Sys2Proof.Machine

/-- The coding of `STATUS.STATE` (10_state.md R29). -/
def SeqState.code : SeqState → BitVec 2
  | .idle => 0
  | .busy => 1
  | .error => 2

/-- The six `CFGV` bits, `POWER` the highest (10_state.md R29). -/
def CfgValid.bits (v : CfgValid) : BitVec 6 :=
  BitVec.ofBool v.power ++ BitVec.ofBool v.fs ++ BitVec.ofBool v.invert ++ BitVec.ofBool v.dev
    ++ BitVec.ofBool v.baud ++ BitVec.ofBool v.center

/-- What a read of `STATUS` returns: `CFGV` at bits 9:4, the reserved bits 3:2 as 0, `STATE` at bits 1:0
(10_state.md R29). -/
def State.statusWord (s : State) : BitVec 10 :=
  s.cfgv.bits ++ 0#2 ++ s.seq.code

end Sys2Proof.Machine
end

