-- ==== Sys2Proof/Machine/Operands.lean ====
section
/-! DEFINITION. The registers and memories as the host reaches them: numbers, widths, who may write
(10_state.md R22, R28, R30, R40 to R43; 20_memory.md R60; 45_control_ops.md R222, R223). -/

namespace Sys2Proof.Machine

/-- The registers of 10_state.md R22, R28 and R30. -/
inductive Reg where
  | cmd | status | ecode | einfo | eop
  | d | p | ric | func | pay | cw | mtype
  | len | ngrp | nbits | nsamp
  | cfgCenter | cfgBaud | cfgDev | cfgInvert | cfgFs | cfgPower
deriving DecidableEq, Repr

/-- The register of a number (10_state.md R22, R28, R30). -/
def regOf (n : Nat) : Option Reg :=
  if n = 0x00 then some .cmd
  else if n = 0x01 then some .status
  else if n = 0x02 then some .ecode
  else if n = 0x03 then some .einfo
  else if n = 0x04 then some .eop
  else if n = 0x08 then some .d
  else if n = 0x09 then some .p
  else if n = 0x0A then some .ric
  else if n = 0x0B then some .func
  else if n = 0x0C then some .pay
  else if n = 0x0D then some .cw
  else if n = 0x0E then some .mtype
  else if n = 0x10 then some .len
  else if n = 0x11 then some .ngrp
  else if n = 0x12 then some .nbits
  else if n = 0x13 then some .nsamp
  else if n = 0x18 then some .cfgCenter
  else if n = 0x19 then some .cfgBaud
  else if n = 0x1A then some .cfgDev
  else if n = 0x1B then some .cfgInvert
  else if n = 0x1C then some .cfgFs
  else if n = 0x1D then some .cfgPower
  else none

/-- The width of a register (10_state.md R22, R28, R30; `W_CNT` = `W_CFG` = 32). -/
def Reg.width : Reg → Nat
  | .cmd => 4
  | .status => 10
  | .ecode => 4
  | .einfo => 32
  | .eop => 4
  | .d => 21
  | .p => 10
  | .ric => 21
  | .func => 2
  | .pay => 20
  | .cw => 32
  | .mtype => 1
  | .len => 32
  | .ngrp => 32
  | .nbits => 32
  | .nsamp => 32
  | .cfgCenter => 32
  | .cfgBaud => 32
  | .cfgDev => 32
  | .cfgInvert => 1
  | .cfgFs => 32
  | .cfgPower => 32

/-- Whether the host may only read the register (10_state.md R22, R28). -/
def Reg.readOnly : Reg → Bool
  | .status => true
  | .ecode => true
  | .einfo => true
  | .eop => true
  | .p => true
  | .cw => true
  | .nsamp => true
  | .cmd => false
  | .d => false
  | .ric => false
  | .func => false
  | .pay => false
  | .mtype => false
  | .len => false
  | .ngrp => false
  | .nbits => false
  | .cfgCenter => false
  | .cfgBaud => false
  | .cfgDev => false
  | .cfgInvert => false
  | .cfgFs => false
  | .cfgPower => false

/-- What a read of a register returns; a read of `CMD` returns 0 (10_state.md R28, 45_control_ops.md R222). -/
def State.regRead (s : State) : Reg → BitVec 32
  | .cmd => 0
  | .status => s.statusWord.setWidth 32
  | .ecode => s.ecode.setWidth 32
  | .einfo => s.einfo
  | .eop => s.eop.setWidth 32
  | .d => s.d.setWidth 32
  | .p => s.p.setWidth 32
  | .ric => s.ric.setWidth 32
  | .func => s.func.setWidth 32
  | .pay => s.pay.setWidth 32
  | .cw => s.cw
  | .mtype => s.mtype.setWidth 32
  | .len => s.len
  | .ngrp => s.ngrp
  | .nbits => s.nbits
  | .nsamp => s.nsamp
  | .cfgCenter => s.cfgCenter
  | .cfgBaud => s.cfgBaud
  | .cfgDev => s.cfgDev
  | .cfgInvert => s.cfgInvert.setWidth 32
  | .cfgFs => s.cfgFs
  | .cfgPower => s.cfgPower

/-- The state after a host write of a value that fits: a read-only register keeps its value
(45_control_ops.md R222); a configuration register sets its `CFGV` bit (R223). `CMD` stores nothing;
what a write of it starts is `cmdWrite`'s. -/
def State.regWrite (s : State) (r : Reg) (v : Nat) : State :=
  match r with
  | .cmd => s
  | .status => s
  | .ecode => s
  | .einfo => s
  | .eop => s
  | .p => s
  | .cw => s
  | .nsamp => s
  | .d => { s with d := BitVec.ofNat 21 v }
  | .ric => { s with ric := BitVec.ofNat 21 v }
  | .func => { s with func := BitVec.ofNat 2 v }
  | .pay => { s with pay := BitVec.ofNat 20 v }
  | .mtype => { s with mtype := BitVec.ofNat 1 v }
  | .len => { s with len := BitVec.ofNat 32 v }
  | .ngrp => { s with ngrp := BitVec.ofNat 32 v }
  | .nbits => { s with nbits := BitVec.ofNat 32 v }
  | .cfgCenter => { s with cfgCenter := BitVec.ofNat 32 v, cfgv := { s.cfgv with center := true } }
  | .cfgBaud => { s with cfgBaud := BitVec.ofNat 32 v, cfgv := { s.cfgv with baud := true } }
  | .cfgDev => { s with cfgDev := BitVec.ofNat 32 v, cfgv := { s.cfgv with dev := true } }
  | .cfgInvert => { s with cfgInvert := BitVec.ofNat 1 v, cfgv := { s.cfgv with invert := true } }
  | .cfgFs => { s with cfgFs := BitVec.ofNat 32 v, cfgv := { s.cfgv with fs := true } }
  | .cfgPower => { s with cfgPower := BitVec.ofNat 32 v, cfgv := { s.cfgv with power := true } }

/-- The four memories (20_memory.md R60). -/
inductive Space where
  | txt | grp | bit | smp
deriving DecidableEq, Repr

/-- The space of an id (20_memory.md R60). -/
def spaceOf (n : Nat) : Option Space :=
  if n = 0 then some .txt
  else if n = 1 then some .grp
  else if n = 2 then some .bit
  else if n = 3 then some .smp
  else none

/-- The id of a space (20_memory.md R60). -/
def Space.id : Space → Nat
  | .txt => 0
  | .grp => 1
  | .bit => 2
  | .smp => 3

/-- The capacity of a space (00_scope.md R8). -/
def Space.capacity : Space → Nat
  | .txt => Config.maxChars
  | .grp => Config.maxGrp
  | .bit => Config.maxBits
  | .smp => Config.maxSamp

/-- What a read of an element returns (20_memory.md R61, R71). -/
def State.memRead (s : State) (sp : Space) (i : Nat) : ReadData :=
  match sp with
  | .txt => .word ((s.txtAt i).setWidth 32)
  | .grp => .word ((s.grpAt i).setWidth 32)
  | .bit => .word ((s.bitAt i).setWidth 32)
  | .smp => .sample (s.smpAt i)

/-- A host write of an element: refused where the value does not fit (10_state.md R23, U5); a write to
`SMP` changes nothing (45_control_ops.md R222). -/
def State.memWrite (s : State) (sp : Space) (i v : Nat) : Host.Outcome State Fault Refusal :=
  match sp with
  | .txt =>
    if v < 2 ^ 8 then .next { s with txt := Mem.write s.txt i (BitVec.ofNat 8 v) }
    else .refused (.valueTooWide v)
  | .grp =>
    if v < 2 ^ 20 then .next { s with grp := Mem.write s.grp i (BitVec.ofNat 20 v) }
    else .refused (.valueTooWide v)
  | .bit =>
    if v < 2 ^ 1 then .next { s with bit := Mem.write s.bit i (BitVec.ofNat 1 v) }
    else .refused (.valueTooWide v)
  | .smp => .next s

end Sys2Proof.Machine
end

