-- ==== Sys2Proof/Machine/HostMoves.lean ====
section
/-! DEFINITION. What each host move, the block's turn and the hardware reset do (30_encoding.md R118, R119;
45_control_ops.md R220 to R226; 70_reset_and_hazards.md R275). -/

namespace Sys2Proof.Machine

/-- `OP`: the instruction of the bytes, from start to end (45_control_ops.md R220, R221; log 2). -/
def fetchRun (bytes : List Byte) (s : State) : Host.Outcome State Fault Refusal :=
  match decode bytes with
  | .ok i => exec i s
  | .error _ => .refused (.notAnInstruction bytes)

/-- A write of `CMD` for which the host does not wait: an assigned operation other than `RESET` leaves
the block `BUSY` with the operation in progress; `RESET` and the unassigned codes have their effect
at once (10_state.md R26, 45_control_ops.md R220). -/
def cmdWrite (c : Code) (s : State) : Host.Outcome State Fault Refusal :=
  match s.seq with
  | .busy => .refused .hostAccessWhileBusy
  | .error => exec (decodeCode c) s
  | .idle =>
    if c = 0#4 ∨ 8#4 ≤ c then exec (decodeCode c) s
    else .next { s with seq := .busy, curOp := some c }

/-- The block's turn: an operation in progress ends, on the operands as they are, since the host may
change none of them while the block is busy (10_state.md R26, R31; log 3). A block that is not busy
waits. -/
def blockTurn (s : State) : Host.Outcome State Fault Refusal :=
  match s.curOp with
  | some c => exec (decodeCode c) { s with seq := .idle, curOp := none }
  | none => .next s

/-- `WR` (45_control_ops.md R222, R223; 10_state.md R23): `CMD` starts an operation, a read-only register
keeps its value, a value that does not fit is refused, a number that names nothing faults. -/
def hostWr (n v : Nat) (s : State) : Host.Outcome State Fault Refusal :=
  hostAccess
    (fun s =>
      match regOf n with
      | none => .fault (.noSuchRegister n)
      | some r =>
        if r.readOnly then .next s
        else if v < 2 ^ r.width then
          (if r = .cmd then cmdWrite (BitVec.ofNat 4 v) s else .next (s.regWrite r v))
        else .refused (.valueTooWide v))
    s

/-- `RD` (45_control_ops.md R222): `STATUS` at any time, every other register while the block is not busy. -/
def hostRd (n : Nat) (s : State) : Host.Outcome State Fault Refusal :=
  if n = 0x01 then .next { s with rdata := .word (s.regRead .status) }
  else
    hostAccess
      (fun s =>
        match regOf n with
        | none => .fault (.noSuchRegister n)
        | some r => .next { s with rdata := .word (s.regRead r) })
      s

/-- `WRM` (45_control_ops.md R222, 20_memory.md R61). -/
def hostWrm (n i v : Nat) (s : State) : Host.Outcome State Fault Refusal :=
  hostAccess
    (fun s =>
      match spaceOf n with
      | none => .fault (.noSuchSpace n)
      | some sp => if i < sp.capacity then s.memWrite sp i v else .fault (.noSuchElement n i))
    s

/-- `RDM` (45_control_ops.md R222, 20_memory.md R61). -/
def hostRdm (n i : Nat) (s : State) : Host.Outcome State Fault Refusal :=
  hostAccess
    (fun s =>
      match spaceOf n with
      | none => .fault (.noSuchSpace n)
      | some sp =>
        if i < sp.capacity then .next { s with rdata := s.memRead sp i }
        else .fault (.noSuchElement n i))
    s

/-- `TXT`: the characters into `TXT` from element 0, then their number into `LEN` (30_encoding.md R118).
More characters than `TXT` has elements name an element that does not exist. -/
def hostTxt (chars : List Byte) (s : State) : Host.Outcome State Fault Refusal :=
  hostAccess
    (fun s =>
      if chars.length ≤ Config.maxChars then
        .next { s with
          txt := Mem.writeBlock s.txt 0 chars
          len := BitVec.ofNat 32 chars.length }
      else .fault (.noSuchElement 0 Config.maxChars))
    s

/-- Goes on with `k` unless the move before it stopped the run or left the block in `ERROR`
(45_control_ops.md R226). -/
def thenUnlessError (o : Host.Outcome State Fault Refusal)
    (k : State → Host.Outcome State Fault Refusal) : Host.Outcome State Fault Refusal :=
  match o with
  | .next t => if t.seq = .error then .next t else k t
  | .fault r => .fault r
  | .refused r => .refused r

/-- `ENCODE`: `PACKA` or `PACKN` by `TYPE`, `ASM`, `MOD`, stopping at the first that ends in `ERROR`
(45_control_ops.md R226; log 19). -/
def hostEncode (s : State) : Host.Outcome State Fault Refusal :=
  thenUnlessError (if s.mtype = 0#1 then execPacka s else execPackn s) fun t =>
    thenUnlessError (execAsm t) execMod

/-- One move, on the state without it. -/
def runMove (m : HostMove) (s : State) : Host.Outcome State Fault Refusal :=
  match m with
  | .instr bytes => fetchRun bytes s
  | .wr n v => hostWr n v s
  | .wrm n i v => hostWrm n i v s
  | .rd n => hostRd n s
  | .rdm n i => hostRdm n i s
  | .txt chars => hostTxt chars s
  | .encode => hostEncode s
  | .blockTurn => blockTurn s
  | .hardReset => .next s.hardReset

/-- The next move of the machine: the first of `prog`; with none left, the block's turn, which after a
reset is to wait (10_state.md R50; log 1). -/
def nextMove (s : State) : Host.Outcome State Fault Refusal :=
  match s.prog with
  | [] => blockTurn s
  | m :: ms => runMove m { s with prog := ms }

end Sys2Proof.Machine
end

