-- ==== Sys2Proof/Machine/Step.lean ====
section
/-! DEFINITION. One step of the machine, and the placing of one instruction where the next step finds
it. -/

namespace Sys2Proof.Machine

/-- One step: the next move (log 1). -/
def step (s : State) : Host.Outcome State Fault Refusal := nextMove s

/-- `s` with the instruction of the bits `w` as the host's next move. -/
def State.withFetchWord (s : State) (nbits w : Nat) : State :=
  { s with prog := .instr (tableBytes nbits w) :: s.prog }

end Sys2Proof.Machine
end

