-- ==== Sys2Proof/Safety.lean ====
section
/-! DEFINITION. The terms the claims use: the invariant of the machine, and the spec's closed forms of
what each unit computes, written without the machine's own loops, placements and signs. -/

namespace Sys2Proof.Machine

/-! ## The invariant -/

/-- What every reachable state satisfies: the memories are canonical, `CUR_OP` is present exactly while
busy and is an operation that takes time (10_state.md R26, R45), an error is recorded exactly in `ERROR`
and is one that operations raise (60_exceptions.md R236, R240, R248), `PHASE` is below `2^32`
(10_state.md R44), and every sample below `NSAMP` was written by a `MOD` (20_memory.md R62). -/
structure State.Inv (s : State) : Prop where
  txtCanonical : Mem.wf Config.maxChars s.txt = true
  grpCanonical : Mem.wf Config.maxGrp s.grp = true
  bitCanonical : Mem.wf Config.maxBits s.bit = true
  smpCanonical : Mem.wf Config.maxSamp s.smp = true
  busyHasOp : s.seq = .busy ↔ s.curOp.isSome = true
  opTakesTime : ∀ c, s.curOp = some c → c ≠ 0#4 ∧ c < 8#4
  errorRecorded : s.seq = .error →
    s.ecode = 1 ∨ s.ecode = 2 ∨ s.ecode = 4 ∨ s.ecode = 5 ∨ s.ecode = 6
  noErrorRecord : s.seq ≠ .error → s.ecode = 0 ∧ s.einfo = 0 ∧ s.eop = 0
  phaseBound : s.phase < 2 ^ 32
  samplesWritten : ∀ i, i < s.nsamp.toNat → (Mem.get? s.smp i).isSome = true

/-- Several moves one after the other, stopping at the first that stops the run. -/
def runMoves : List HostMove → State → Host.Outcome State Fault Refusal
  | [], s => .next s
  | m :: ms, s =>
    match runMove m s with
    | .next t => runMoves ms t
    | .fault r => .fault r
    | .refused r => .refused r

/-- Several wire words one after the other, in the same way. -/
def placeWords : List Word32 → State → Host.Outcome State Fault Refusal
  | [], s => .next s
  | w :: ws, s =>
    match placeWord w s with
    | .next t => placeWords ws t
    | .fault r => .fault r
    | .refused r => .refused r

/-- `o` is the next state in which `w` stands in the 32 elements of `BIT` from `NBITS` on, most
significant bit first, `NBITS` counts them, and nothing else has changed (20_memory.md R66). -/
def PlacesWord (s : State) (w : Word32) (o : Host.Outcome State Fault Refusal) : Prop :=
  ∃ t, o = .next t
    ∧ t.nbits = s.nbits + 32
    ∧ (∀ k, k < 32 → t.bitAt (s.nbits.toNat + k) = w.extractLsb' (31 - k) 1)
    ∧ (∀ j, j < s.nbits.toNat ∨ s.nbits.toNat + 32 ≤ j → t.bitAt j = s.bitAt j)
    ∧ t = { s with bit := t.bit, nbits := t.nbits }

/-- What a read of each register but `STATUS` returns, by its number: the register's field, 0 for `CMD`
(10_state.md R22, R28, R30; 45_control_ops.md R222). -/
def registerValues (s : State) : List (Nat × BitVec 32) :=
  [(0x00, 0), (0x02, s.ecode.setWidth 32), (0x03, s.einfo), (0x04, s.eop.setWidth 32),
    (0x08, s.d.setWidth 32), (0x09, s.p.setWidth 32), (0x0A, s.ric.setWidth 32),
    (0x0B, s.func.setWidth 32), (0x0C, s.pay.setWidth 32), (0x0D, s.cw), (0x0E, s.mtype.setWidth 32),
    (0x10, s.len), (0x11, s.ngrp), (0x12, s.nbits), (0x13, s.nsamp),
    (0x18, s.cfgCenter), (0x19, s.cfgBaud), (0x1A, s.cfgDev), (0x1B, s.cfgInvert.setWidth 32),
    (0x1C, s.cfgFs), (0x1D, s.cfgPower)]

/-! ## GF(2) -/

/-- The carry-less product of the low `k` bits of `q` with the generator (00_scope.md R14). -/
def timesGenLow (q : BitVec 21) : Nat → BitVec 31
  | 0 => 0#31
  | k + 1 => timesGenLow q k ^^^ (if q.getLsbD k then generator <<< k else 0#31)

/-- The carry-less product of `q` with the generator, 31 bits for a 21-bit `q`. -/
def timesGenerator (q : BitVec 21) : BitVec 31 := timesGenLow q 21

/-- `bch_parity(1 << i)` for `i` from 0 to 20, the table of 40_bch_parity.md R132. -/
def singleBitParities : List (BitVec 10) :=
  [0x369, 0x1BB, 0x376, 0x185, 0x30A, 0x17D, 0x2FA,
   0x29D, 0x253, 0x3CF, 0x0F7, 0x1EE, 0x3DC, 0x0D1,
   0x1A2, 0x344, 0x1E1, 0x3C2, 0x0ED, 0x1DA, 0x3B4]

/-- The exclusive OR of the entries `i` below `k` of that table for which `d[i]` is 1. -/
def tableParityLow (d : Data) : Nat → BitVec 10
  | 0 => 0#10
  | k + 1 => tableParityLow d k ^^^ (if d.getLsbD k then singleBitParities.getD k 0 else 0#10)

/-! ## Packing -/

/-- Bit `j` of the padded alphanumeric stream of the text in `s`: seven bits a character, least
significant first, then 1 bits (42_bit_packer.md R155, R158). -/
def alphaStreamBit (s : State) (j : Nat) : Bool :=
  if j / 7 < s.len.toNat then (s.txtAt (j / 7)).getLsbD (j % 7) else true

/-- Bit `j` of the padded numeric stream of the text in `s`: four bits a character, least significant
first, then 1 bits (42_bit_packer.md R156, R158). -/
def numStreamBit (s : State) (j : Nat) : Bool :=
  if j / 4 < s.len.toNat then ((numCode? numTable (s.txtAt (j / 4))).getD 0).getLsbD (j % 4) else true

/-- The test-only inverse of alphanumeric packing (42_bit_packer.md R165): `n` characters out of the
groups, first bit of a group its bit 19. -/
def unpackAlpha (g : List Group) (n : Nat) : List Byte :=
  (List.range n).map fun i =>
    BitVec.ofNat 8 (numMsb (((g.flatMap (bitsMsb 20)).drop (7 * i)).take 7).reverse)

/-- The same for numeric packing, as 4-bit codes (42_bit_packer.md R165). -/
def unpackNum (g : List Group) (n : Nat) : List (BitVec 4) :=
  (List.range n).map fun i =>
    BitVec.ofNat 4 (numMsb (((g.flatMap (bitsMsb 20)).drop (4 * i)).take 4).reverse)

/-! ## Assembling -/

/-- `q0`, the slot of the address codeword: two slots for each of the frames before the recipient's
(43_frame_assembler.md R177, 30_encoding.md R102). -/
def addressSlot (ric : BitVec 21) : Nat := 2 * (ric.toNat % 8)

/-- The number of batches for `n` groups (43_frame_assembler.md R179). -/
def batchCount (ric : BitVec 21) (n : Nat) : Nat := (addressSlot ric + 1 + n + 15) / 16

/-- The codeword of slot `q`, all batches in one count (43_frame_assembler.md R177). -/
def slotWord (s : State) (q : Nat) : Word32 :=
  if q < addressSlot s.ric then idleWord
  else if q = addressSlot s.ric then addressCodeword s.ric s.func
  else if q < addressSlot s.ric + 1 + s.ngrp.toNat then
    messageCodeword (s.grpAt (q - addressSlot s.ric - 1))
  else idleWord

/-- The words of the transmission `ASM` writes, preamble included (43_frame_assembler.md R184). -/
def transmissionWords (s : State) : List Word32 :=
  List.replicate 18 preambleWord
    ++ batches ((slots s.ric s.func s.groupList).length / 16) (slots s.ric s.func s.groupList)

/-! ## Modulating -/

/-- The configuration `MOD` accepts (44_fsk_modulator.md R198). -/
structure State.ValidConfig (s : State) : Prop where
  written : s.cfgv.baud = true ∧ s.cfgv.dev = true ∧ s.cfgv.invert = true ∧ s.cfgv.fs = true
  baudPos : 0 < s.cfgBaud.toNat
  fsPos : 0 < s.cfgFs.toNat
  divides : s.cfgFs.toNat % s.cfgBaud.toNat = 0

/-- `s(b)` by the table of 44_fsk_modulator.md R197: with `CFG_INVERT` 0 a 1 bit goes to the lower frequency
and a 0 bit to the higher, with `CFG_INVERT` 1 the reverse. -/
def offsetSign (invert b : Bit) : Int :=
  if invert = 0#1 then (if b = 1#1 then -1 else 1) else (if b = 1#1 then 1 else -1)

/-- `CFG_FS div CFG_BAUD`, the samples of one bit (44_fsk_modulator.md R196). -/
def samplesPerBit (s : State) : Nat := s.cfgFs.toNat / s.cfgBaud.toNat

/-- How many of the first `j` bits of `BIT` go to the higher frequency, less how many go to the lower
(`Z_j - O_j` of 44_fsk_modulator.md R204 (c)). -/
def signSum (s : State) : Nat → Int
  | 0 => 0
  | j + 1 => signSum s j + offsetSign s.cfgInvert (s.bitAt j)

/-- The closed form of the phase of sample `t` of bit `j` (44_fsk_modulator.md R204 (c)). -/
def phaseOf (s : State) (j t : Nat) : Nat :=
  (((s.cfgDev.toNat : Int)
      * ((samplesPerBit s : Int) * signSum s j + (t : Int) * offsetSign s.cfgInvert (s.bitAt j)))
    % (s.cfgFs.toNat : Int)).toNat

/-- The phase of sample `n` by the recurrence of 44_fsk_modulator.md R203: 0 at sample 0, and from each
sample to the next the tone's frequency in hertz is added modulo `CFG_FS`; sample `n` belongs to bit
`n / SPB` (R199). -/
def phaseAt (s : State) : Nat → Nat
  | 0 => 0
  | n + 1 =>
    (((phaseAt s n : Int)
        + offsetSign s.cfgInvert (s.bitAt (n / samplesPerBit s)) * (s.cfgDev.toNat : Int))
      % (s.cfgFs.toNat : Int)).toNat

end Sys2Proof.Machine
end

