-- ==== Sys2Proof/Certificates/Slice0/Obligations.lean ====
section
/-! DEFINITION. The statements for the provers, one `def Obligations.<Name> : Prop` each, spread over the
rules of the spec. Where a clause rests on a choice of the model and not on a rule, its docstring names
the log entry. -/

open Sys2Proof Sys2Proof.Machine

/-! ## Reset and the invariant -/

/-- A hardware reset, in every state (busy and error included), gives the values of 10_state.md R50; what
R50 calls unspecified holds the free value of this reset (log 5, log 6, log 18). -/
def Obligations.HardwareResetGivesResetValues : Prop :=
  ∀ (s : State) (ms : List HostMove), ∃ t,
    step { s with prog := .hardReset :: ms } = .next t
    ∧ t.seq = .idle ∧ t.statusWord = 0#10
    ∧ t.ecode = 0 ∧ t.einfo = 0 ∧ t.eop = 0
    ∧ t.len = 0 ∧ t.ngrp = 0 ∧ t.nbits = 0 ∧ t.nsamp = 0
    ∧ t.phase = 0 ∧ t.curOp = none
    ∧ t.d = Config.resetD (s.resets + 1) ∧ t.p = Config.resetP (s.resets + 1)
    ∧ t.ric = Config.resetRic (s.resets + 1) ∧ t.func = Config.resetFunc (s.resets + 1)
    ∧ t.pay = Config.resetPay (s.resets + 1) ∧ t.cw = Config.resetCw (s.resets + 1)
    ∧ t.mtype = Config.resetType (s.resets + 1)
    ∧ t.cfgCenter = Config.resetCenter (s.resets + 1) ∧ t.cfgBaud = Config.resetBaud (s.resets + 1)
    ∧ t.cfgDev = Config.resetDev (s.resets + 1) ∧ t.cfgInvert = Config.resetInvert (s.resets + 1)
    ∧ t.cfgFs = Config.resetFs (s.resets + 1) ∧ t.cfgPower = Config.resetPower (s.resets + 1)
    ∧ (∀ i, t.txtAt i = Config.resetTxt (s.resets + 1) i)
    ∧ (∀ i, t.grpAt i = Config.resetGrp (s.resets + 1) i)
    ∧ (∀ i, t.bitAt i = Config.resetBit (s.resets + 1) i)
    ∧ (∀ i, t.smpAt i = Config.resetSmp (s.resets + 1) i)
    ∧ t.prog = ms ∧ t.rdata = s.rdata

/-- The state after the first hardware reset meets the invariant. -/
def Obligations.ResetStateMeetsInvariant : Prop := State.reset.Inv

/-- Every step from a state that meets the invariant, reached by a run or not, ends in one that does. -/
def Obligations.EveryStepKeepsInvariant : Prop :=
  ∀ s t : State, s.Inv → step s = .next t → t.Inv

/-- With no host move waiting and no operation in progress the block waits (10_state.md R50). -/
def Obligations.IdleBlockWaits : Prop :=
  ∀ s : State, s.prog = [] → s.curOp = none → step s = .next s

/-! ## Encoding -/

/-- Decoding an encoded well-formed instruction gives it back, for every operand. -/
def Obligations.DecodeOfEncodeIsInstruction : Prop :=
  ∀ i : Instr, WellFormed i → decode (encode i) = .ok i

/-- What the decoder reads is well formed, and its encoding is the bytes that were read. Which row a word of
two formats belongs to, and the layout of the bytes, are the model's choices (log 14, log 15). -/
def Obligations.EncodeOfDecodeIsBytes : Prop :=
  ∀ (bs : List Byte) (i : Instr), decode bs = .ok i → WellFormed i ∧ encode i = bs

/-- Words written out from 30_encoding.md R92, R93, R98, R99, R110 and R111 decode to what they stand
for: a code of each family, `0x4B5A1A25` (data `0x096B43`, odd function code, so read as a message
codeword, log 14), `0x4B5A0780`, `0x13FFFFB3` and the constants. -/
def Obligations.SpecWordsDecode : Prop :=
  decodeTableWord 8 0x0 = some .reset ∧ decodeTableWord 8 0x1 = some .bch
    ∧ decodeTableWord 8 0x3 = some .msgcw ∧ decodeTableWord 8 0x5 = some .packn
    ∧ decodeTableWord 8 0x6 = some .asm ∧ decodeTableWord 8 0x7 = some .mod
    ∧ decodeTableWord 8 0x9 = some (.unassigned 1)
    ∧ decodeTableWord 32 0x4B5A0780 = some (.addressCw 0x25AD0 0 0x3C0 0)
    ∧ decodeTableWord 32 0x4B5A1A25 = some (.messageCw 0x4B5A1 0x112 1)
    ∧ decodeTableWord 32 0x13FFFFB3 = some (.messageCw 0x13FFF 0x3D9 1)
    ∧ decodeTableWord 32 0x7A89C197 = some .idleCw
    ∧ decodeTableWord 32 0x7CD215D8 = some .syncCw
    ∧ decodeTableWord 32 0xAAAAAAAA = some .preambleWord

/-- When the host's next move is an instruction whose bytes decode to `i`, the step is `exec` of `i` on the
state without that move. The placing of an instruction by `withFetchWord` makes it that move. -/
def Obligations.StepRunsDecodedInstruction : Prop :=
  (∀ (s : State) (bs : List Byte) (ms : List HostMove) (i : Instr),
      s.prog = .instr bs :: ms → decode bs = .ok i → step s = exec i { s with prog := ms })
    ∧ ∀ (s : State) (nbits w : Nat) (i : Instr),
      decodeTableWord nbits w = some i → step (s.withFetchWord nbits w) = exec i s

/-- Exactly which bytes are no instruction: one byte above 15, four bytes with bit 31 equal to 1 and bit 11
equal to 0, and any other number of bytes than one and four; the host's presenting them is refused,
by the model's choice of that outcome (30_encoding.md R92, R93, R110; 10_state.md R23; the precedence of
the formats is log 14's, the byte layout log 15's, the refusal log 17's). -/
def Obligations.UndecodableBytesAreRefused : Prop :=
  (∀ b : Byte, (∃ e, decode [b] = .error e) ↔ 16 ≤ b.toNat)
    ∧ (∀ b3 b2 b1 b0 : Byte,
      (∃ e, decode [b3, b2, b1, b0] = .error e) ↔ b3.getLsbD 7 = true ∧ b1.getLsbD 3 = false)
    ∧ (∀ bs : List Byte, bs.length ≠ 1 → bs.length ≠ 4 → decode bs = .error .badLength)
    ∧ ∀ (s : State) (bs : List Byte) (e : DecodeError), decode bs = .error e →
      runMove (.instr bs) s = .refused (.notAnInstruction bs)

/-! ## BCH and codewords -/

/-- `polymod` is division over GF(2): its result differs from its argument by a multiple of the generator,
and is the only 10-bit value that does (00_scope.md R14). -/
def Obligations.PolymodIsUniqueRemainder : Prop :=
  ∀ a : BitVec 31,
    (∃ q : BitVec 21, a = timesGenerator q ^^^ (polymod a).setWidth 31)
    ∧ ∀ (q : BitVec 21) (r : BitVec 10), a = timesGenerator q ^^^ r.setWidth 31 → r = polymod a

/-- 40_bch_parity.md R132, whole: linearity, the value at zero, the table, and that the parity is the
exclusive OR of the table's entries. -/
def Obligations.BchParityIsLinear : Prop :=
  (∀ a b : Data, bchParity (a ^^^ b) = bchParity a ^^^ bchParity b)
    ∧ bchParity 0#21 = 0#10
    ∧ (∀ i, i < 21 → bchParity (1#21 <<< i) = singleBitParities.getD i 0)
    ∧ ∀ d : Data, bchParity d = tableParityLow d 21

/-- 41_codeword_builder.md R142, whole: the three properties of every codeword, and which data words the
two builders reach. -/
def Obligations.CodewordSatisfiesCheckEquation : Prop :=
  (∀ d : Data,
      (codeword d).extractLsb' 11 21 = d
      ∧ polymod ((codeword d).extractLsb' 1 31) = 0#10
      ∧ popcount 32 (codeword d) % 2 = 0)
    ∧ (∀ d : Data, (∃ ric func, addressData ric func = d) ↔ d.getLsbD 20 = false)
    ∧ ∀ d : Data, (∃ pay, messageData pay = d) ↔ d.getLsbD 0 = true

/-- 30_encoding.md R98: the two constants have their values, and are the codewords of their data words with
the stated fields. -/
def Obligations.ConstantsAreCodewords : Prop :=
  idleWord = 0x7A89C197#32 ∧ syncWord = 0x7CD215D8#32
    ∧ codeword 0x0F5138#21 = 0x7A89C197#32 ∧ bchParity 0x0F5138#21 = 0x0CB#10
    ∧ parity 31 (bchWord 0x0F5138#21) = 1#1
    ∧ codeword 0x0F9A42#21 = 0x7CD215D8#32 ∧ bchParity 0x0F9A42#21 = 0x2EC#10
    ∧ parity 31 (bchWord 0x0F9A42#21) = 0#1

/-- 30_encoding.md R114: exactly which addresses forge the idle and the sync codeword, and that no message
codeword does. -/
def Obligations.ForgedConstantsAreSixteenAddresses : Prop :=
  (∀ (ric : BitVec 21) (func : BitVec 2),
      (addressCodeword ric func = idleWord
        ↔ 2007664 ≤ ric.toNat ∧ ric.toNat ≤ 2007671 ∧ func = 0#2)
      ∧ (addressCodeword ric func = syncWord
        ↔ 2045056 ≤ ric.toNat ∧ ric.toNat ≤ 2045063 ∧ func = 2#2))
    ∧ ∀ pay : Group, messageCodeword pay ≠ idleWord ∧ messageCodeword pay ≠ syncWord

/-- 30_encoding.md R115: an address and a message codeword are the same word exactly when the address's
data word, whose top bit is 0, is the payload followed by the flag; so the function code is odd and the
payload begins with 0. -/
def Obligations.AddressAndMessageCanBeSameWord : Prop :=
  (∀ (ric : BitVec 21) (func : BitVec 2) (pay : Group),
      addressCodeword ric func = messageCodeword pay
        ↔ pay.getLsbD 19 = false ∧ func.getLsbD 0 = true ∧ pay.getLsbD 0 = func.getLsbD 1
          ∧ ∀ k, k < 18 → pay.getLsbD (k + 1) = ric.getLsbD (k + 3))
    ∧ addressCodeword 1#21 3#2 = 0x00001DA5#32 ∧ messageCodeword 0x00001#20 = 0x00001DA5#32

/-- `BCH` in `IDLE` ends with the parity of `D` in `P` and nothing else changed (40_bch_parity.md R134),
with the rule's corner values. -/
def Obligations.BchCompletes : Prop :=
  (∀ s : State, s.seq = .idle → exec .bch s = .next { s with p := polymod (s.d.setWidth 31 <<< 10) })
    ∧ bchParity 0x000000#21 = 0x000#10 ∧ bchParity 0x1FFFFF#21 = 0x3FF#10
    ∧ bchParity 0x096B43#21 = 0x112#10

/-- `ADDRCW` in `IDLE` ends with the address codeword of `RIC` and `FUNC` in `CW`, field by field as
30_encoding.md R92 lays it out, and nothing else changed (41_codeword_builder.md R140). -/
def Obligations.AddrcwCompletes : Prop :=
  ∀ s : State, s.seq = .idle → ∃ t, exec .addrcw s = .next t
    ∧ t = { s with cw := t.cw }
    ∧ t.cw.getLsbD 31 = false
    ∧ t.cw.extractLsb' 13 18 = s.ric.extractLsb' 3 18
    ∧ t.cw.extractLsb' 11 2 = s.func
    ∧ t.cw.extractLsb' 1 10 = bchParity (t.cw.extractLsb' 11 21)
    ∧ popcount 32 t.cw % 2 = 0

/-- `MSGCW` in `IDLE` ends with the message codeword of `PAY` in `CW`, field by field as 30_encoding.md
R93 lays it out, and nothing else changed (41_codeword_builder.md R141). -/
def Obligations.MsgcwCompletes : Prop :=
  ∀ s : State, s.seq = .idle → ∃ t, exec .msgcw s = .next t
    ∧ t = { s with cw := t.cw }
    ∧ t.cw.extractLsb' 12 20 = s.pay
    ∧ t.cw.getLsbD 11 = true
    ∧ t.cw.extractLsb' 1 10 = bchParity (t.cw.extractLsb' 11 21)
    ∧ popcount 32 t.cw % 2 = 0

/-! ## Packing -/

/-- 30_encoding.md R106, R108: exactly the fifteen characters have a code, digit `n` has code `n`, and the
five other symbols have five distinct codes in `0xA` to `0xF`, whichever they are (log 11). -/
def Obligations.NumericCodesAreDistinct : Prop :=
  (∀ c : Byte, (numCode? numTable c).isSome = isNumeric c)
    ∧ (∀ n, n < 10 → numCode? numTable (BitVec.ofNat 8 (0x30 + n)) = some (BitVec.ofNat 4 n))
    ∧ ∀ c c' : Byte, ∀ v : BitVec 4,
      numCode? numTable c = some v → numCode? numTable c' = some v → c = c'
        ∧ (c < 0x30#8 ∨ 0x39#8 < c → 0xA#4 ≤ v)

/-- `PACKA` in `IDLE` with a legal text that fits ends with the padded stream, bit by bit, in the groups
below `NGRP`, `NGRP` counts them, and nothing else has changed (42_bit_packer.md R155, R157 to R160). -/
def Obligations.PackaCompletes : Prop :=
  ∀ s : State, s.seq = .idle → s.len.toNat ≤ Config.maxChars →
    (∀ i, i < s.len.toNat → 0x20#8 ≤ s.txtAt i ∧ s.txtAt i ≤ 0x7E#8) →
    ∃ t, exec .packa s = .next t
      ∧ t = { s with grp := t.grp, ngrp := t.ngrp }
      ∧ t.ngrp.toNat = (7 * s.len.toNat + 19) / 20
      ∧ (∀ k j, k < t.ngrp.toNat → j < 20 →
          (t.grpAt k).getLsbD (19 - j) = alphaStreamBit s (20 * k + j))
      ∧ ∀ k, t.ngrp.toNat ≤ k → t.grpAt k = s.grpAt k

/-- The same for `PACKN` and the numeric alphabet (42_bit_packer.md R156 to R159, R161). The codes of the
five non-digit symbols are free (log 11). -/
def Obligations.PacknCompletes : Prop :=
  ∀ s : State, s.seq = .idle → s.len.toNat ≤ Config.maxChars →
    (∀ i, i < s.len.toNat → (0x30#8 ≤ s.txtAt i ∧ s.txtAt i ≤ 0x39#8)
      ∨ s.txtAt i = 0x20#8 ∨ s.txtAt i = 0x55#8 ∨ s.txtAt i = 0x2D#8
      ∨ s.txtAt i = 0x5B#8 ∨ s.txtAt i = 0x5D#8) →
    ∃ t, exec .packn s = .next t
      ∧ t = { s with grp := t.grp, ngrp := t.ngrp }
      ∧ t.ngrp.toNat = (4 * s.len.toNat + 19) / 20
      ∧ (∀ k j, k < t.ngrp.toNat → j < 20 →
          (t.grpAt k).getLsbD (19 - j) = numStreamBit s (20 * k + j))
      ∧ ∀ k, t.ngrp.toNat ≤ k → t.grpAt k = s.grpAt k

/-- 42_bit_packer.md R165: unpacking the groups of a text over the alphabet, given its length, gives the
text back; for numeric text it gives the codes of its characters, whichever table is chosen (log 11). -/
def Obligations.UnpackRecoversText : Prop :=
  (∀ text : List Byte, (∀ c ∈ text, 0x20#8 ≤ c ∧ c ≤ 0x7E#8) →
      unpackAlpha (groups (pad (streamAlpha text))) text.length = text)
    ∧ ∀ text : List Byte,
      unpackNum (groups (pad (streamNum numTable text))) text.length
        = text.map fun c => (numCode? numTable c).getD 0

/-- 60_exceptions.md R238: `PACKA` and `PACKN` raise `E_LEN` with the length when it is too long, whatever
the text, and change nothing but the error record. -/
def Obligations.PackRefusesTooLongText : Prop :=
  ∀ s : State, s.seq = .idle → Config.maxChars < s.len.toNat →
    exec .packa s = .next { s with seq := .error, ecode := 1, einfo := s.len, eop := 0x4 }
    ∧ exec .packn s = .next { s with seq := .error, ecode := 1, einfo := s.len, eop := 0x5 }

/-- 60_exceptions.md R239 and 42_bit_packer.md R163: with a length that fits, `PACKA` and `PACKN` raise
`E_CHAR` with the least index of a character outside their alphabet, and change nothing but the error
record. -/
def Obligations.PackReportsFirstBadCharacter : Prop :=
  ∀ (s : State) (i : Nat), s.seq = .idle → s.len.toNat ≤ Config.maxChars → i < s.len.toNat →
    ((¬ (0x20#8 ≤ s.txtAt i ∧ s.txtAt i ≤ 0x7E#8)) →
      (∀ j, j < i → 0x20#8 ≤ s.txtAt j ∧ s.txtAt j ≤ 0x7E#8) →
      exec .packa s
        = .next { s with seq := .error, ecode := 2, einfo := BitVec.ofNat 32 i, eop := 0x4 })
    ∧ (isNumeric (s.txtAt i) = false → (∀ j, j < i → isNumeric (s.txtAt j) = true) →
      exec .packn s
        = .next { s with seq := .error, ecode := 2, einfo := BitVec.ofNat 32 i, eop := 0x5 })

/-! ## Assembling -/

/-- `ASM` in `IDLE` with a group count that fits: the words of `BIT` are the preamble, and for each of the
`NB` batches the sync codeword and sixteen slots, slot by slot as 43_frame_assembler.md R177 places them;
`NB` is the least number of batches that holds them (R179); `NBITS` counts the bits (R184); nothing else
has changed. -/
def Obligations.AsmCompletes : Prop :=
  ∀ s : State, s.seq = .idle → s.ngrp.toNat ≤ Config.maxGrp →
    ∃ t nb, exec .asm s = .next t
      ∧ t = { s with bit := t.bit, nbits := t.nbits }
      ∧ 2 * (s.ric.toNat % 8) + 1 + s.ngrp.toNat ≤ 16 * nb
      ∧ 16 * nb < 2 * (s.ric.toNat % 8) + 1 + s.ngrp.toNat + 16
      ∧ 1 ≤ nb ∧ nb ≤ 3
      ∧ t.nbits.toNat = 576 + 544 * nb
      ∧ (∀ w, w < 18 → t.wordAt w = 0xAAAAAAAA#32)
      ∧ (∀ b, b < nb → t.wordAt (18 + 17 * b) = 0x7CD215D8#32)
      ∧ (∀ b q, b < nb → q < 16 → t.wordAt (18 + 17 * b + 1 + q) = slotWord s (16 * b + q))
      ∧ ∀ j, t.nbits.toNat ≤ j → t.bitAt j = s.bitAt j

/-- 60_exceptions.md R241: `ASM` with more groups than `GRP` holds raises `E_CAP` with the count and changes
nothing but the error record. -/
def Obligations.AsmRefusesTooManyGroups : Prop :=
  ∀ s : State, s.seq = .idle → Config.maxGrp < s.ngrp.toNat →
    exec .asm s = .next { s with seq := .error, ecode := 5, einfo := s.ngrp, eop := 0x6 }

/-- 60_exceptions.md R241: the counts the operations leave themselves never pass the capacities. -/
def Obligations.CountsLeftByOperationsFit : Prop :=
  ∀ s t : State, s.seq = .idle → t.seq = .idle →
    (exec .packa s = .next t → t.ngrp.toNat ≤ Config.maxGrp)
    ∧ (exec .packn s = .next t → t.ngrp.toNat ≤ Config.maxGrp)
    ∧ (exec .asm s = .next t → t.nbits.toNat ≤ Config.maxBits)

/-! ## Modulating -/

/-- `MOD` in `IDLE` with a configuration it accepts and counts that fit: `NSAMP` is `NBITS * SPB`, sample
`n` is `IQ` of the phase of sample `n`, `PHASE` is the phase after the last sample, and nothing else has
changed (44_fsk_modulator.md R199, R202 to R204; `IQ` is free, log 8, `MAX_SAMP` is log 9's). The phases
follow the sign of R197's table, spelled out in `offsetSign`. -/
def Obligations.ModCompletes : Prop :=
  ∀ s : State, s.seq = .idle → s.ValidConfig → s.nbits.toNat ≤ Config.maxBits →
    s.nbits.toNat * (s.cfgFs.toNat / s.cfgBaud.toNat) ≤ Config.maxSamp →
    ∃ t, exec .mod s = .next t
      ∧ t = { s with smp := t.smp, nsamp := t.nsamp, phase := t.phase }
      ∧ t.nsamp.toNat = s.nbits.toNat * (s.cfgFs.toNat / s.cfgBaud.toNat)
      ∧ (∀ n, n < t.nsamp.toNat → t.smpAt n = Config.iq (phaseAt s n) s.cfgFs.toNat)
      ∧ t.phase = phaseAt s t.nsamp.toNat
      ∧ ∀ n, t.nsamp.toNat ≤ n → t.smpAt n = s.smpAt n

/-- 44_fsk_modulator.md R204 (c): sample `k` of bit `j` that `MOD` writes has the closed form's phase, in
`SMP` and in the machine's own sequence of phases, and `PHASE` ends at the closed form's value after the
last bit (`MAX_SAMP` is log 9's, `IQ` is free, log 8). -/
def Obligations.PhaseHasClosedForm : Prop :=
  ∀ s : State, s.seq = .idle → s.ValidConfig → s.nbits.toNat ≤ Config.maxBits →
    s.nbits.toNat * (s.cfgFs.toNat / s.cfgBaud.toNat) ≤ Config.maxSamp →
    ∃ t, exec .mod s = .next t
      ∧ (∀ j k, j < s.nbits.toNat → k < samplesPerBit s →
        t.smpAt (j * samplesPerBit s + k) = Config.iq (phaseOf s j k) s.cfgFs.toNat
        ∧ (phases s.cfgFs.toNat s.cfgDev.toNat s.cfgInvert 0
            (sampleBits s.spb s.bitList))[j * samplesPerBit s + k]? = some (phaseOf s j k))
      ∧ t.phase = phaseOf s s.nbits.toNat 0

/-- 44_fsk_modulator.md R204 (d): run with the other polarity, `MOD` writes as many samples, and the phase
of each, and `PHASE` at the end, are negated modulo `CFG_FS` (`MAX_SAMP` is log 9's, `IQ` is free, log 8). -/
def Obligations.OtherPolarityNegatesPhases : Prop :=
  ∀ s : State, s.seq = .idle → s.ValidConfig → s.nbits.toNat ≤ Config.maxBits →
    s.nbits.toNat * (s.cfgFs.toNat / s.cfgBaud.toNat) ≤ Config.maxSamp →
    ∃ t t', exec .mod s = .next t
      ∧ exec .mod { s with cfgInvert := s.cfgInvert ^^^ 1#1 } = .next t'
      ∧ t'.nsamp = t.nsamp
      ∧ (t'.phase + t.phase) % s.cfgFs.toNat = 0
      ∧ ∀ n, n < t.nsamp.toNat → ∃ ph ph', ph < s.cfgFs.toNat ∧ ph' < s.cfgFs.toNat
        ∧ (ph' + ph) % s.cfgFs.toNat = 0
        ∧ ph = phaseAt s n
        ∧ t.smpAt n = Config.iq ph s.cfgFs.toNat ∧ t'.smpAt n = Config.iq ph' s.cfgFs.toNat

/-- 44_fsk_modulator.md R204 (e): where the first 576 bits are a preamble, the first sample after it has
phase 0, and where they are all the bits `PHASE` ends at 0 (`MAX_SAMP` is log 9's, `IQ` is free, log 8). -/
def Obligations.PreambleReturnsPhaseToZero : Prop :=
  ∀ s : State, s.seq = .idle → s.ValidConfig → 576 ≤ s.nbits.toNat → s.nbits.toNat ≤ Config.maxBits →
    s.nbits.toNat * (s.cfgFs.toNat / s.cfgBaud.toNat) ≤ Config.maxSamp →
    (∀ j, j < 576 → s.bitAt j = if j % 2 = 0 then 1#1 else 0#1) →
    ∃ t, exec .mod s = .next t
      ∧ (s.nbits.toNat = 576 → t.phase = 0)
      ∧ (576 < s.nbits.toNat → t.smpAt (576 * samplesPerBit s) = Config.iq 0 s.cfgFs.toNat)

/-- 44_fsk_modulator.md R205: the samples are a function of the bits below `NBITS`, their number and the
four configuration registers alone. -/
def Obligations.ModDependsOnItsInputsAlone : Prop :=
  ∀ s s' t t' : State, s.seq = .idle → s'.seq = .idle → s.ValidConfig → s'.ValidConfig →
    s'.nbits = s.nbits → (∀ j, j < s.nbits.toNat → s'.bitAt j = s.bitAt j) →
    s'.cfgBaud = s.cfgBaud → s'.cfgDev = s.cfgDev → s'.cfgInvert = s.cfgInvert → s'.cfgFs = s.cfgFs →
    exec .mod s = .next t → exec .mod s' = .next t' → t.seq = .idle →
    t'.seq = .idle ∧ t'.nsamp = t.nsamp ∧ t'.phase = t.phase
      ∧ ∀ n, n < t.nsamp.toNat → t'.smpAt n = t.smpAt n

/-- 60_exceptions.md R243 and 44_fsk_modulator.md R198: the four configuration checks in their order, each
with its number in `EINFO` and nothing but the error record changed, whatever the counts. -/
def Obligations.ModReportsFirstFailedCheck : Prop :=
  ∀ s : State, s.seq = .idle →
    ((s.cfgv.baud && s.cfgv.dev && s.cfgv.invert && s.cfgv.fs) = false →
      exec .mod s = .next { s with seq := .error, ecode := 4, einfo := 1, eop := 0x7 })
    ∧ ((s.cfgv.baud && s.cfgv.dev && s.cfgv.invert && s.cfgv.fs) = true →
      (s.cfgBaud = 0 →
        exec .mod s = .next { s with seq := .error, ecode := 4, einfo := 2, eop := 0x7 })
      ∧ (s.cfgBaud ≠ 0 → s.cfgFs = 0 →
        exec .mod s = .next { s with seq := .error, ecode := 4, einfo := 3, eop := 0x7 })
      ∧ (s.cfgBaud ≠ 0 → s.cfgFs ≠ 0 → s.cfgFs.toNat % s.cfgBaud.toNat ≠ 0 →
        exec .mod s = .next { s with seq := .error, ecode := 4, einfo := 4, eop := 0x7 }))

/-- 60_exceptions.md R241 and R245: with a valid configuration `MOD` raises `E_CAP` for a bit count above
`MAX_BITS`, else for a sample count above `MAX_SAMP`, and changes nothing but the error record. A sample
count above this model's `MAX_SAMP` (log 9) has more than 32 bits, so `EINFO` then holds a free value
(log 12). -/
def Obligations.ModRefusesCountsAboveCapacity : Prop :=
  ∀ s : State, s.seq = .idle → s.ValidConfig →
    (Config.maxBits < s.nbits.toNat →
      exec .mod s = .next { s with seq := .error, ecode := 5, einfo := s.nbits, eop := 0x7 })
    ∧ (s.nbits.toNat ≤ Config.maxBits → Config.maxSamp < s.nbits.toNat * s.spb →
      exec .mod s = .next { s with
        seq := .error, ecode := 5, einfo := Config.einfoWide (s.nbits.toNat * s.spb), eop := 0x7 })

/-! ## Control operations and errors -/

/-- `RESET`, in `IDLE` and in `ERROR`, zeroes the error record, the four counts and `PHASE`, goes to `IDLE`
and keeps everything else (45_control_ops.md R224). -/
def Obligations.ResetOperationCompletes : Prop :=
  ∀ s : State, s.seq ≠ .busy →
    exec .reset s = .next { s with
      seq := .idle, ecode := 0, einfo := 0, eop := 0, len := 0, ngrp := 0, nbits := 0, nsamp := 0,
      phase := 0 }

/-- 60_exceptions.md R242: an unassigned code in `IDLE`, as an operation or as a write of `CMD`, raises `E_OP`
with the code in `EINFO` and `EOP` and changes nothing but the error record. -/
def Obligations.UnassignedCodeRaisesOpError : Prop :=
  ∀ (s : State) (c : BitVec 3), s.seq = .idle →
    exec (.unassigned c) s = .next { s with
      seq := .error, ecode := 6, einfo := BitVec.ofNat 32 (8 + c.toNat), eop := BitVec.ofNat 4 (8 + c.toNat) }
    ∧ runMove (.wr 0x00 (8 + c.toNat)) s = exec (.unassigned c) s

/-- In `ERROR` a code other than `RESET`'s, as an operation or as a write of `CMD`, changes nothing at all,
and a write of `RESET`'s is `RESET` (45_control_ops.md R220, 10_state.md R26). -/
def Obligations.ErrorIgnoresCommands : Prop :=
  ∀ s : State, s.seq = .error →
    (∀ i : Instr, i.code?.isSome = true → i ≠ .reset → exec i s = .next s)
    ∧ (∀ c : Code, c ≠ 0#4 → runMove (.wr 0x00 c.toNat) s = .next s)
    ∧ runMove (.wr 0x00 0) s = exec .reset s

/-- 60_exceptions.md R247: an instruction that ends in an error has written nothing but the error record. -/
def Obligations.ErrorsArePrecise : Prop :=
  ∀ (s t : State) (i : Instr), s.seq = .idle → exec i s = .next t → t.seq = .error →
    t = { s with seq := .error, ecode := t.ecode, einfo := t.einfo, eop := t.eop }

/-- 60_exceptions.md R248: whatever the next move is, `ERROR` and its record stay, unless the move is `RESET`
(as an operation or as a write of `CMD`) or a hardware reset, which leave to `IDLE`. -/
def Obligations.ErrorStateIsSticky : Prop :=
  ∀ s t : State, s.Inv → s.seq = .error → step s = .next t →
    (t.seq = .error ∧ t.ecode = s.ecode ∧ t.einfo = s.einfo ∧ t.eop = s.eop)
    ∨ (t.seq = .idle ∧ t.ecode = 0 ∧ t.einfo = 0 ∧ t.eop = 0
      ∧ ∃ ms, s.prog = .hardReset :: ms ∨ s.prog = .wr 0x00 0 :: ms
        ∨ ∃ bs, s.prog = .instr bs :: ms ∧ decode bs = .ok .reset)

/-- 60_exceptions.md R240: no step leaves the code of `E_ENCODE` in `ECODE` that was not there before. -/
def Obligations.EncodeErrorIsNeverRaised : Prop :=
  ∀ s t : State, step s = .next t → t.ecode = 3#4 → s.ecode = 3#4

/-- 10_state.md R30: no instruction writes a configuration register or a `CFGV` bit. -/
def Obligations.NoInstructionWritesConfiguration : Prop :=
  ∀ (s t : State) (i : Instr), exec i s = .next t →
    t.cfgCenter = s.cfgCenter ∧ t.cfgBaud = s.cfgBaud ∧ t.cfgDev = s.cfgDev
      ∧ t.cfgInvert = s.cfgInvert ∧ t.cfgFs = s.cfgFs ∧ t.cfgPower = s.cfgPower ∧ t.cfgv = s.cfgv

/-- 10_state.md R22, R24 and R40 to R44: the frame of every instruction. Each register and memory changes
only under the instructions the tables give it as writers; the operands, the text and the host's own
fields under none. The wire words write `BIT` and `NBITS` (log 13). -/
def Obligations.InstructionsWriteOnlyTheirResults : Prop :=
  ∀ (s t : State) (i : Instr), exec i s = .next t →
    (t.d = s.d ∧ t.ric = s.ric ∧ t.func = s.func ∧ t.pay = s.pay ∧ t.mtype = s.mtype
      ∧ t.txt = s.txt ∧ t.curOp = s.curOp ∧ t.resets = s.resets ∧ t.rdata = s.rdata ∧ t.prog = s.prog)
    ∧ (i ≠ .bch → t.p = s.p)
    ∧ (i ≠ .addrcw → i ≠ .msgcw → t.cw = s.cw)
    ∧ (i ≠ .reset → t.len = s.len)
    ∧ (i ≠ .packa → i ≠ .packn → t.grp = s.grp ∧ (i ≠ .reset → t.ngrp = s.ngrp))
    ∧ (i ≠ .asm → i.code?.isSome = true → t.bit = s.bit ∧ (i ≠ .reset → t.nbits = s.nbits))
    ∧ (i ≠ .mod → t.smp = s.smp ∧ (i ≠ .reset → t.nsamp = s.nsamp ∧ t.phase = s.phase))

/-! ## Wire words -/

/-- Each wire word, while the block is not busy and where it fits, is placed as the next 32 elements of `BIT`
(10_state.md R42, 20_memory.md R66). That a wire word as an instruction is the host's placing it is the
model's choice (log 13). -/
def Obligations.WireWordsArePlaced : Prop :=
  ∀ s : State, s.seq ≠ .busy → s.nbits.toNat + 32 ≤ Config.maxBits →
    (∀ a f p e, PlacesWord s (0#1 ++ a ++ f ++ p ++ e) (exec (.addressCw a f p e) s))
    ∧ (∀ m p e, PlacesWord s (m ++ 1#1 ++ p ++ e) (exec (.messageCw m p e) s))
    ∧ PlacesWord s 0x7A89C197#32 (exec .idleCw s)
    ∧ PlacesWord s 0x7CD215D8#32 (exec .syncCw s)
    ∧ PlacesWord s 0xAAAAAAAA#32 (exec .preambleWord s)

/-- A wire word that does not fit below `MAX_BITS` names an element that does not exist and stops the run
(20_memory.md R61; log 13, log 17). -/
def Obligations.WireWordPastBitMemoryFaults : Prop :=
  ∀ (s : State) (i : Instr), i.code? = none → s.seq ≠ .busy → Config.maxBits < s.nbits.toNat + 32 →
    exec i s = .fault (.noSuchElement 2 (max s.nbits.toNat Config.maxBits))

/-- A wire word reaches no state that the host could not reach by the moves the spec gives it: it is 32 writes
of elements of `BIT` and one of `NBITS` (45_control_ops.md R222; log 13). -/
def Obligations.WireWordIsHostWrites : Prop :=
  ∀ (s : State) (i : Instr), i.code? = none → s.seq ≠ .busy → s.nbits.toNat + 32 ≤ Config.maxBits →
    Mem.wf Config.maxBits s.bit = true →
    exec i s
      = runMoves
          ((List.range 32).map
              (fun k => .wrm 2 (s.nbits.toNat + k) (i.word.extractLsb' (31 - k) 1).toNat)
            ++ [.wr 0x12 (s.nbits.toNat + 32)])
          s

/-- `ASM` is the placing of the words of its transmission one after the other from bit 0: eighteen preamble
words, then for each batch the sync codeword and its sixteen slots (43_frame_assembler.md R180, R184; the
placing of one word is the meaning of the wire words, log 13). -/
def Obligations.AsmPlacesItsWordsInOrder : Prop :=
  ∀ s : State, s.seq = .idle → s.ngrp.toNat ≤ Config.maxGrp →
    exec .asm s = placeWords (transmissionWords s) { s with nbits := 0 }

/-! ## The host's moves -/

/-- While the block is busy every instruction, and every host access but a read of `STATUS`, is refused
(70_reset_and_hazards.md R283, U1). -/
def Obligations.BusyBlockRefusesHostAccess : Prop :=
  ∀ s : State, s.seq = .busy →
    (∀ i, exec i s = .refused .hostAccessWhileBusy)
    ∧ (∀ n v, runMove (.wr n v) s = .refused .hostAccessWhileBusy)
    ∧ (∀ n, n ≠ 0x01 → runMove (.rd n) s = .refused .hostAccessWhileBusy)
    ∧ (∀ n i v, runMove (.wrm n i v) s = .refused .hostAccessWhileBusy)
    ∧ (∀ n i, runMove (.rdm n i) s = .refused .hostAccessWhileBusy)
    ∧ (∀ cs, runMove (.txt cs) s = .refused .hostAccessWhileBusy)
    ∧ runMove .encode s = .refused .hostAccessWhileBusy

/-- A read of `STATUS` is answered in every state and changes nothing; the fields stand where 10_state.md
R29 puts them and the reserved bits are 0. -/
def Obligations.StatusReadShowsFields : Prop :=
  ∀ s : State, ∃ v : BitVec 32, runMove (.rd 0x01) s = .next { s with rdata := .word v }
    ∧ (v.extractLsb' 0 2 = 0#2 ↔ s.seq = .idle)
    ∧ (v.extractLsb' 0 2 = 1#2 ↔ s.seq = .busy)
    ∧ (v.extractLsb' 0 2 = 2#2 ↔ s.seq = .error)
    ∧ v.extractLsb' 2 2 = 0#2
    ∧ v.getLsbD 4 = s.cfgv.center ∧ v.getLsbD 5 = s.cfgv.baud ∧ v.getLsbD 6 = s.cfgv.dev
    ∧ v.getLsbD 7 = s.cfgv.invert ∧ v.getLsbD 8 = s.cfgv.fs ∧ v.getLsbD 9 = s.cfgv.power
    ∧ v.extractLsb' 10 22 = 0#22

/-- 45_control_ops.md R220 and 10_state.md R26: a write of an assigned code other than `RESET`'s to `CMD` in
`IDLE` leaves the block busy with that operation and nothing else changed; the block's turn then has the
effect of the operation on the state of the write. `RESET` and the unassigned codes have theirs at once.
How long the block stays busy is data in the program of moves (log 3). -/
def Obligations.CommandWriteThenTurnIsOperation : Prop :=
  ∀ (s : State) (c : Code), s.seq = .idle → s.curOp = none →
    (c ≠ 0#4 → c < 8#4 →
      runMove (.wr 0x00 c.toNat) s = .next { s with seq := .busy, curOp := some c }
      ∧ runMove .blockTurn { s with seq := .busy, curOp := some c } = exec (decodeCode c) s)
    ∧ (c = 0#4 ∨ 8#4 ≤ c → runMove (.wr 0x00 c.toNat) s = exec (decodeCode c) s)

/-- While the block is not busy a read of a register or of an element that exists is answered and changes
nothing but the datum it returns: for each register number its field, 0 for `CMD`
(45_control_ops.md R222, 10_state.md R22, R28, R30, 20_memory.md R71; the datum's place is log 16's). -/
def Obligations.HostReadChangesNothing : Prop :=
  ∀ s : State, s.seq ≠ .busy →
    (∀ p ∈ registerValues s, runMove (.rd p.1) s = .next { s with rdata := .word p.2 })
    ∧ (∀ n r, regOf n = some r → n = 0x01 ∨ ∃ v, (n, v) ∈ registerValues s)
    ∧ (∀ i, i < Config.maxChars →
        runMove (.rdm 0 i) s = .next { s with rdata := .word ((s.txtAt i).setWidth 32) })
    ∧ (∀ i, i < Config.maxGrp →
        runMove (.rdm 1 i) s = .next { s with rdata := .word ((s.grpAt i).setWidth 32) })
    ∧ (∀ i, i < Config.maxBits →
        runMove (.rdm 2 i) s = .next { s with rdata := .word ((s.bitAt i).setWidth 32) })
    ∧ (∀ i, i < Config.maxSamp → runMove (.rdm 3 i) s = .next { s with rdata := .sample (s.smpAt i) })

/-- A write of a value that fits to a register the host may write is read back; every other register but
`STATUS`, every memory, and the free values its unlisted elements read as, are as before
(45_control_ops.md R222). -/
def Obligations.HostWriteIsReadBack : Prop :=
  ∀ (s : State) (n v : Nat) (r : Reg), s.seq ≠ .busy → regOf n = some r → r.readOnly = false →
    r ≠ .cmd → v < 2 ^ r.width →
    ∃ t, runMove (.wr n v) s = .next t
      ∧ t.regRead r = BitVec.ofNat 32 v
      ∧ (∀ r', r' ≠ r → r' ≠ .status → t.regRead r' = s.regRead r')
      ∧ t.txt = s.txt ∧ t.grp = s.grp ∧ t.bit = s.bit ∧ t.smp = s.smp
      ∧ t.seq = s.seq ∧ t.phase = s.phase ∧ t.curOp = s.curOp
      ∧ t.resets = s.resets ∧ t.rdata = s.rdata ∧ t.prog = s.prog

/-- 45_control_ops.md R223: a write of a configuration register stores the value and sets that register's
`CFGV` bit, and changes nothing else, the other `CFGV` bits among it; a write of any other register sets
no `CFGV` bit. -/
def Obligations.ConfigurationWriteSetsItsBit : Prop :=
  ∀ (s : State) (v : Nat), s.seq ≠ .busy →
    (v < 2 ^ 32 →
      runMove (.wr 0x18 v) s = .next { s with
        cfgCenter := BitVec.ofNat 32 v, cfgv := { s.cfgv with center := true } }
      ∧ runMove (.wr 0x19 v) s = .next { s with
        cfgBaud := BitVec.ofNat 32 v, cfgv := { s.cfgv with baud := true } }
      ∧ runMove (.wr 0x1A v) s = .next { s with
        cfgDev := BitVec.ofNat 32 v, cfgv := { s.cfgv with dev := true } }
      ∧ runMove (.wr 0x1C v) s = .next { s with
        cfgFs := BitVec.ofNat 32 v, cfgv := { s.cfgv with fs := true } }
      ∧ runMove (.wr 0x1D v) s = .next { s with
        cfgPower := BitVec.ofNat 32 v, cfgv := { s.cfgv with power := true } })
    ∧ (v < 2 →
      runMove (.wr 0x1B v) s = .next { s with
        cfgInvert := BitVec.ofNat 1 v, cfgv := { s.cfgv with invert := true } })
    ∧ ∀ n t, n < 0x18 → runMove (.wr n v) s = .next t → t.cfgv = s.cfgv

/-- A write to a read-only register or to an element of `SMP` changes nothing (45_control_ops.md R222, U6). -/
def Obligations.ReadOnlyWriteIsIgnored : Prop :=
  ∀ s : State, s.seq ≠ .busy →
    (∀ n r v, regOf n = some r → r.readOnly = true → runMove (.wr n v) s = .next s)
    ∧ ∀ i v, i < Config.maxSamp → runMove (.wrm 3 i v) s = .next s

/-- A host write of an element of `TXT`, `GRP` or `BIT` is read back, every other element is as before, and
nothing else has changed (20_memory.md R61, 45_control_ops.md R222). -/
def Obligations.HostElementWriteIsReadBack : Prop :=
  ∀ (s : State) (i v : Nat), s.seq ≠ .busy →
    (i < Config.maxChars → v < 2 ^ 8 → ∃ t, runMove (.wrm 0 i v) s = .next t
      ∧ t = { s with txt := t.txt } ∧ (t.txtAt i).toNat = v ∧ ∀ k, k ≠ i → t.txtAt k = s.txtAt k)
    ∧ (i < Config.maxGrp → v < 2 ^ 20 → ∃ t, runMove (.wrm 1 i v) s = .next t
      ∧ t = { s with grp := t.grp } ∧ (t.grpAt i).toNat = v ∧ ∀ k, k ≠ i → t.grpAt k = s.grpAt k)
    ∧ (i < Config.maxBits → v < 2 → ∃ t, runMove (.wrm 2 i v) s = .next t
      ∧ t = { s with bit := t.bit } ∧ (t.bitAt i).toNat = v ∧ ∀ k, k ≠ i → t.bitAt k = s.bitAt k)

/-- What names nothing stops the run: a register number the tables do not list, a space id above 3, an index
at or above the capacity (U4, log 17); a value wider than its register or element is refused
(10_state.md R23, U5). -/
def Obligations.MissingPlacesAndWideValuesStop : Prop :=
  ∀ s : State, s.seq ≠ .busy →
    (∀ n v, (4 < n ∧ n < 8) ∨ n = 0x0F ∨ (0x13 < n ∧ n < 0x18) ∨ 0x1D < n →
      runMove (.wr n v) s = .fault (.noSuchRegister n)
        ∧ runMove (.rd n) s = .fault (.noSuchRegister n))
    ∧ (∀ n i v, 3 < n → runMove (.wrm n i v) s = .fault (.noSuchSpace n)
        ∧ runMove (.rdm n i) s = .fault (.noSuchSpace n))
    ∧ (∀ n sp i v, spaceOf n = some sp → sp.capacity ≤ i →
      runMove (.wrm n i v) s = .fault (.noSuchElement n i)
        ∧ runMove (.rdm n i) s = .fault (.noSuchElement n i))
    ∧ (∀ n r v, regOf n = some r → r.readOnly = false → 2 ^ r.width ≤ v →
      runMove (.wr n v) s = .refused (.valueTooWide v))
    ∧ (∀ i v, i < Config.maxChars → 2 ^ 8 ≤ v → runMove (.wrm 0 i v) s = .refused (.valueTooWide v))
    ∧ (∀ i v, i < Config.maxGrp → 2 ^ 20 ≤ v → runMove (.wrm 1 i v) s = .refused (.valueTooWide v))
    ∧ (∀ i v, i < Config.maxBits → 2 ≤ v → runMove (.wrm 2 i v) s = .refused (.valueTooWide v))

/-- `TXT` puts a text that fits into the elements from 0 on and its length into `LEN`, and changes nothing
else (30_encoding.md R118). That `TXT`, which R118 expands into several host writes, is one move answered
in one step is the model's choice (log 19). -/
def Obligations.TextMoveFillsTextMemory : Prop :=
  ∀ (s : State) (cs : List Byte), s.seq ≠ .busy → cs.length ≤ Config.maxChars →
    ∃ t, runMove (.txt cs) s = .next t
      ∧ t = { s with txt := t.txt, len := t.len }
      ∧ t.text = cs
      ∧ ∀ i, cs.length ≤ i → t.txtAt i = s.txtAt i

/-- 45_control_ops.md R226: `ENCODE` of a legal text that fits, of either type, with a configuration `MOD`
accepts and room for the samples, is the pack operation, `ASM` and `MOD` one after the other, and leaves the
whole transmission: the padded stream in the `n` groups, every word of the preamble and of the batches, the
sample of every phase of those bits, the counts, and nothing else changed, elements past the counts
included. `ENCODE` as one step is the model's choice (log 19); `IQ`, the numeric codes and `MAX_SAMP` are
logs 8, 11 and 9. -/
def Obligations.EncodeBuildsWholeTransmission : Prop :=
  ∀ (s : State) (n : Nat), s.seq = .idle → s.len.toNat ≤ Config.maxChars → s.ValidConfig →
    (s.mtype = 0#1 → n = (7 * s.len.toNat + 19) / 20
      ∧ ∀ i, i < s.len.toNat → isAlpha (s.txtAt i) = true) →
    (s.mtype = 1#1 → n = (4 * s.len.toNat + 19) / 20
      ∧ ∀ i, i < s.len.toNat → isNumeric (s.txtAt i) = true) →
    (576 + 544 * batchCount s.ric n) * samplesPerBit s ≤ Config.maxSamp →
    ∃ u v t, exec (if s.mtype = 0#1 then .packa else .packn) s = .next u
      ∧ exec .asm u = .next v ∧ exec .mod v = .next t
      ∧ runMove .encode s = .next t
      ∧ t = { s with
          grp := t.grp, ngrp := t.ngrp, bit := t.bit, nbits := t.nbits
          smp := t.smp, nsamp := t.nsamp, phase := t.phase }
      ∧ t.ngrp.toNat = n
      ∧ t.nbits.toNat = 576 + 544 * batchCount s.ric n
      ∧ t.nsamp.toNat = (576 + 544 * batchCount s.ric n) * samplesPerBit s
      ∧ (∀ k j, k < n → j < 20 → (t.grpAt k).getLsbD (19 - j)
          = if s.mtype = 0#1 then alphaStreamBit s (20 * k + j) else numStreamBit s (20 * k + j))
      ∧ (∀ w, w < 18 → t.wordAt w = 0xAAAAAAAA#32)
      ∧ (∀ b, b < batchCount s.ric n → t.wordAt (18 + 17 * b) = 0x7CD215D8#32)
      ∧ (∀ b q, b < batchCount s.ric n → q < 16 →
          t.wordAt (18 + 17 * b + 1 + q) = slotWord t (16 * b + q))
      ∧ (∀ k, k < t.nsamp.toNat → t.smpAt k = Config.iq (phaseAt t k) s.cfgFs.toNat)
      ∧ t.phase = phaseAt t t.nsamp.toNat
      ∧ (∀ k, n ≤ k → t.grpAt k = s.grpAt k)
      ∧ (∀ j, t.nbits.toNat ≤ j → t.bitAt j = s.bitAt j)
      ∧ ∀ k, t.nsamp.toNat ≤ k → t.smpAt k = s.smpAt k

/-- 45_control_ops.md R226: `ENCODE` stops at the first operation that ends in `ERROR`, with that operation's
error entry and the results of those before it. -/
def Obligations.EncodeStopsAtFirstError : Prop :=
  ∀ s t : State, s.seq = .idle →
    (exec (if s.mtype = 0#1 then .packa else .packn) s = .next t → t.seq = .error →
      runMove .encode s = .next t)
    ∧ ∀ u v, exec (if s.mtype = 0#1 then .packa else .packn) s = .next u → u.seq = .idle →
      exec .asm u = .next v → v.seq = .idle → exec .mod v = .next t → t.seq = .error →
      runMove .encode s = .next t
        ∧ t.grp = u.grp ∧ t.ngrp = u.ngrp ∧ t.bit = v.bit ∧ t.nbits = v.nbits
end

