-- ==== Sys2Proof/Laws/Bits.lean ====
section
/-! SUPPORT. Bits of words in stream order, and the linearity of the division. -/

namespace Sys2Proof.Machine

/-! ## Lists of bits -/

@[simp] theorem length_bitsMsb (n : Nat) (v : BitVec n) : (bitsMsb n v).length = n := by
  simp [bitsMsb]

@[simp] theorem length_bitsLsb (n : Nat) (v : BitVec n) : (bitsLsb n v).length = n := by
  simp [bitsLsb]

theorem getElem?_bitsMsb (n : Nat) (v : BitVec n) {k : Nat} (h : k < n) :
    (bitsMsb n v)[k]? = some (v.extractLsb' (n - 1 - k) 1) := by
  simp [bitsMsb, h]

theorem getElem?_bitsLsb (n : Nat) (v : BitVec n) {k : Nat} (h : k < n) :
    (bitsLsb n v)[k]? = some (v.extractLsb' k 1) := by
  simp [bitsLsb, h]

/-- Two one-bit values are equal when their bits are. -/
theorem bit_ext {a b : Bit} (h : a.getLsbD 0 = b.getLsbD 0) : a = b := by
  apply BitVec.eq_of_getLsbD_eq
  intro i hi
  obtain rfl : i = 0 := by omega
  exact h

theorem numMsb_foldl (bs : List Bit) (a : Nat) :
    bs.foldl (fun acc b => 2 * acc + b.toNat) a = a * 2 ^ bs.length + numMsb bs := by
  induction bs generalizing a with
  | nil => simp [numMsb]
  | cons b bs ih =>
    have e : numMsb (b :: bs) = b.toNat * 2 ^ bs.length + numMsb bs := by
      have := ih b.toNat
      simpa [numMsb] using this
    simp only [List.foldl_cons, ih, e, List.length_cons, pow_succ]
    ring

/-- The first bit of a list counts for the highest power of two. -/
theorem numMsb_cons (b : Bit) (bs : List Bit) :
    numMsb (b :: bs) = b.toNat * 2 ^ bs.length + numMsb bs := by
  simpa [numMsb] using numMsb_foldl bs b.toNat

theorem numMsb_lt (bs : List Bit) : numMsb bs < 2 ^ bs.length := by
  induction bs with
  | nil => simp [numMsb]
  | cons b bs ih =>
    have hb : b.toNat < 2 := b.isLt
    rw [numMsb_cons, List.length_cons, pow_succ]
    have : b.toNat * 2 ^ bs.length ≤ 1 * 2 ^ bs.length := Nat.mul_le_mul_right _ (by omega)
    omega

/-- Bit `length - 1 - k` of the number of a list is element `k` of the list. -/
theorem testBit_numMsb (bs : List Bit) {k : Nat} (h : k < bs.length) :
    (numMsb bs).testBit (bs.length - 1 - k) = (bs[k]).getLsbD 0 := by
  induction bs generalizing k with
  | nil => simp at h
  | cons b bs ih =>
    rw [numMsb_cons, Nat.mul_comm]
    have hlt := numMsb_lt bs
    cases k with
    | zero =>
      simp only [List.length_cons, List.getElem_cons_zero]
      rw [show bs.length + 1 - 1 - 0 = bs.length by omega, Nat.testBit_two_pow_mul_add _ hlt]
      simp [BitVec.getLsbD]
    | succ k =>
      simp only [List.length_cons, List.getElem_cons_succ]
      have hk : k < bs.length := by simpa using h
      rw [show bs.length + 1 - 1 - (k + 1) = bs.length - 1 - k by omega,
        Nat.testBit_two_pow_mul_add _ hlt, if_pos (by omega)]
      exact ih hk

/-- Bit `n - 1 - k` of `word_msb` of `n` bits is bit `k` of the list (00_scope.md R12). -/
theorem getLsbD_wordMsb {n : Nat} {bs : List Bit} (hl : bs.length = n) {k : Nat} (h : k < n) :
    (wordMsb n bs).getLsbD (n - 1 - k) = (bs[k]'(by omega)).getLsbD 0 := by
  subst hl
  simp only [wordMsb, BitVec.getLsbD_ofNat]
  rw [testBit_numMsb bs h]
  simp [show bs.length - 1 - k < bs.length by omega]

/-- `word_msb` undoes `bits_msb` (00_scope.md R12). -/
theorem wordMsb_bitsMsb (n : Nat) (v : BitVec n) : wordMsb n (bitsMsb n v) = v := by
  apply BitVec.eq_of_getLsbD_eq
  intro i hi
  have hk : n - 1 - i < n := by omega
  have h := getLsbD_wordMsb (length_bitsMsb n v) hk
  rw [show n - 1 - (n - 1 - i) = i by omega] at h
  rw [h]
  simp [bitsMsb, show n - 1 - (n - 1 - i) = i by omega]

/-! ## Division over GF(2) -/

theorem clearBit_xor (a b : BitVec 31) (i : Nat) :
    clearBit (a ^^^ b) i = clearBit a i ^^^ clearBit b i := by
  simp only [clearBit, BitVec.getLsbD_xor]
  cases a.getLsbD i <;> cases b.getLsbD i <;>
    simp only [Bool.not_false, Bool.not_true, if_true, if_false, Bool.false_eq_true,
      Bool.xor_false, Bool.xor_true]
  · rw [BitVec.xor_assoc]
  · rw [BitVec.xor_assoc, BitVec.xor_assoc, BitVec.xor_comm b]
  · rw [BitVec.xor_assoc, BitVec.xor_comm _ (b ^^^ _), BitVec.xor_assoc b, BitVec.xor_self,
      BitVec.xor_zero]

theorem clearBits_xor (k : Nat) (a b : BitVec 31) :
    clearBits k (a ^^^ b) = clearBits k a ^^^ clearBits k b := by
  induction k generalizing a b with
  | zero => rfl
  | succ k ih => simp only [clearBits, clearBit_xor, ih]

/-- Division over GF(2) is linear (40_bch_parity.md R132). -/
theorem polymod_xor (a b : BitVec 31) : polymod (a ^^^ b) = polymod a ^^^ polymod b := by
  simp only [polymod, clearBits_xor]
  ext i hi
  simp

end Sys2Proof.Machine
end

