-- ==== Sys2Proof/Laws/Encoding.lean ====
section
/-! SUPPORT. The bits of the wire words, field by field, and of four bytes laid side by side. -/

namespace Sys2Proof.Machine

/-- The bits of an address word, lowest field first (30_encoding.md R92). -/
theorem getLsbD_addressWord (a : BitVec 18) (f : BitVec 2) (p : BitVec 10) (e : Bit) (i : Nat) :
    (addressWord a f p e).getLsbD i =
      if i < 1 then e.getLsbD i
      else if i < 11 then p.getLsbD (i - 1)
      else if i < 13 then f.getLsbD (i - 11)
      else a.getLsbD (i - 13) := by
  change BitVec.getLsbD (w := 1 + 18 + 2 + 10 + 1) (0#1 ++ a ++ f ++ p ++ e) i = _
  simp only [BitVec.getLsbD_append, Nat.sub_sub]
  split_ifs <;> first
    | rfl
    | omega
    | (rw [BitVec.getLsbD_of_ge a _ (by omega)]; simp)

/-- The bits of a message word, lowest field first (30_encoding.md R93). -/
theorem getLsbD_messageWord (m : Group) (p : BitVec 10) (e : Bit) (i : Nat) :
    (messageWord m p e).getLsbD i =
      if i < 1 then e.getLsbD i
      else if i < 11 then p.getLsbD (i - 1)
      else if i < 12 then true
      else m.getLsbD (i - 12) := by
  change BitVec.getLsbD (w := 20 + 1 + 10 + 1) (m ++ 1#1 ++ p ++ e) i = _
  simp only [BitVec.getLsbD_append, Nat.sub_sub]
  split_ifs <;> first
    | rfl
    | omega
    | (rw [show i - 11 = 0 by omega]; rfl)

/-- The bits of four bytes laid side by side, the last byte lowest. -/
theorem getLsbD_bytes (b3 b2 b1 b0 : Byte) (i : Nat) :
    BitVec.getLsbD (w := 32) (b3 ++ b2 ++ b1 ++ b0) i =
      if i < 8 then b0.getLsbD i
      else if i < 16 then b1.getLsbD (i - 8)
      else if i < 24 then b2.getLsbD (i - 16)
      else b3.getLsbD (i - 24) := by
  change BitVec.getLsbD (w := 8 + 8 + 8 + 8) (b3 ++ b2 ++ b1 ++ b0) i = _
  simp only [BitVec.getLsbD_append, Nat.sub_sub]
  split_ifs <;> first
    | rfl
    | omega

end Sys2Proof.Machine
end

