-- ==== Sys2Proof/Laws/Memory.lean ====
section
/-! SUPPORT. What the memory operations do, element by element, and that each keeps the canonical
form. -/

namespace Sys2Proof.Machine

variable {α : Type}

/-! ## Reading after writing -/

@[simp] theorem Mem.get?_nil (i : Nat) : Mem.get? ([] : Mem α) i = none := rfl

theorem Mem.get?_cons (j : Nat) (v : α) (m : Mem α) (i : Nat) :
    Mem.get? ((j, v) :: m) i = if j = i then some v else Mem.get? m i := rfl

/-- A write of one element is read back, and every other element is as before. -/
theorem Mem.get?_write (m : Mem α) (i : Nat) (v : α) (k : Nat) :
    Mem.get? (Mem.write m i v) k = if k = i then some v else Mem.get? m k := by
  induction m with
  | nil => simp [Mem.write, Mem.get?, eq_comm]
  | cons c m ih =>
    obtain ⟨j, w⟩ := c
    simp only [Mem.write]
    split
    · simp only [Mem.get?_cons]; grind
    · split
      · simp only [Mem.get?_cons]; grind
      · simp only [Mem.get?_cons, ih]; grind

theorem Mem.get?_append (m m' : Mem α) (k : Nat) :
    Mem.get? (m ++ m') k = (Mem.get? m k).or (Mem.get? m' k) := by
  induction m with
  | nil => simp
  | cons c m ih =>
    obtain ⟨j, w⟩ := c
    simp only [List.cons_append, Mem.get?_cons, ih]
    split <;> simp

theorem Mem.get?_filter (m : Mem α) (q : Nat → Bool) (k : Nat) :
    Mem.get? (m.filter fun c => q c.1) k = if q k then Mem.get? m k else none := by
  induction m with
  | nil => simp
  | cons c m ih =>
    obtain ⟨j, w⟩ := c
    by_cases hq : q j = true
    · rw [List.filter_cons_of_pos (by simpa using hq)]
      simp only [Mem.get?_cons, ih]
      split
      · next h => subst h; simp [hq]
      · rfl
    · rw [List.filter_cons_of_neg (by simpa using hq), ih]
      simp only [Mem.get?_cons]
      split
      · split
        · next h => subst h; contradiction
        · rfl
      · rfl

theorem Mem.get?_cells (b : Nat) (vs : List α) (k : Nat) :
    Mem.get? (Mem.cells b vs) k = if b ≤ k then vs[k - b]? else none := by
  induction vs generalizing b with
  | nil => simp [Mem.cells]
  | cons v vs ih =>
    simp only [Mem.cells, Mem.get?_cons, ih]
    rcases Nat.lt_trichotomy b k with h | h | h
    · obtain ⟨d, rfl⟩ : ∃ d, k = b + 1 + d := ⟨k - (b + 1), by omega⟩
      have e : b + 1 + d - b = d + 1 := by omega
      rw [if_neg (by omega), if_pos (by omega), if_pos (by omega), e]
      simp
    · subst h; simp
    · rw [if_neg (by omega), if_neg (by omega), if_neg (by omega)]

/-- A block write is read back, and every element outside the block is as before. -/
theorem Mem.get?_writeBlock (m : Mem α) (b : Nat) (vs : List α) (k : Nat) :
    Mem.get? (Mem.writeBlock m b vs) k
      = if b ≤ k ∧ k < b + vs.length then vs[k - b]? else Mem.get? m k := by
  simp only [Mem.writeBlock, Mem.get?_append, Mem.get?_cells,
    Mem.get?_filter m (fun i => decide (i < b)), Mem.get?_filter m (fun i => decide (b + vs.length ≤ i)),
    decide_eq_true_eq]
  by_cases h1 : b ≤ k
  · by_cases h2 : k < b + vs.length
    · have : k - b < vs.length := by omega
      simp [h1, h2, Nat.not_lt.mpr h1, List.getElem?_eq_getElem this]
    · have : vs.length ≤ k - b := by omega
      simp [h1, h2, Nat.not_lt.mpr h1, List.getElem?_eq_none this, Nat.not_lt.mp h2]
  · have h3 : ¬ b + vs.length ≤ k := by omega
    simp [h1, h3, Nat.lt_of_not_le h1]

/-- Reading an element after a block write. -/
theorem Mem.read_writeBlock (free : Nat → α) (m : Mem α) (b : Nat) (vs : List α) (k : Nat) :
    Mem.read free (Mem.writeBlock m b vs) k
      = if b ≤ k ∧ k < b + vs.length then (vs[k - b]?).getD (free k) else Mem.read free m k := by
  simp only [Mem.read, Mem.get?_writeBlock]
  split <;> rfl

/-- Reading an element after a write of one. -/
theorem Mem.read_write (free : Nat → α) (m : Mem α) (i : Nat) (v : α) (k : Nat) :
    Mem.read free (Mem.write m i v) k = if k = i then v else Mem.read free m k := by
  simp only [Mem.read, Mem.get?_write]
  split <;> rfl

/-! ## The canonical form -/

theorem Mem.wfFrom_mono {cap lo lo' : Nat} {m : Mem α} (h : Mem.wfFrom cap lo' m = true)
    (hl : lo ≤ lo') : Mem.wfFrom cap lo m = true := by
  cases m with
  | nil => rfl
  | cons c m =>
    simp only [Mem.wfFrom, Bool.and_eq_true, decide_eq_true_eq] at h ⊢
    exact ⟨⟨by omega, h.1.2⟩, h.2⟩

theorem Mem.wfFrom_write {cap lo i : Nat} {m : Mem α} (v : α) (h : Mem.wfFrom cap lo m = true)
    (hlo : lo ≤ i) (hi : i < cap) : Mem.wfFrom cap lo (Mem.write m i v) = true := by
  induction m generalizing lo with
  | nil => simp [Mem.write, Mem.wfFrom, hlo, hi]
  | cons c m ih =>
    obtain ⟨j, w⟩ := c
    simp only [Mem.wfFrom, Bool.and_eq_true, decide_eq_true_eq] at h
    simp only [Mem.write]
    split
    · simp only [Mem.wfFrom, Bool.and_eq_true, decide_eq_true_eq]
      exact ⟨⟨hlo, hi⟩, ⟨by omega, h.1.2⟩, h.2⟩
    · split
      · next e =>
        subst e
        simp only [Mem.wfFrom, Bool.and_eq_true, decide_eq_true_eq]
        exact ⟨⟨hlo, hi⟩, h.2⟩
      · simp only [Mem.wfFrom, Bool.and_eq_true, decide_eq_true_eq]
        exact ⟨h.1, ih h.2 (by omega)⟩

/-- A write of one element below the capacity keeps the canonical form. -/
theorem Mem.wf_write {cap i : Nat} {m : Mem α} (v : α) (h : Mem.wf cap m = true) (hi : i < cap) :
    Mem.wf cap (Mem.write m i v) = true :=
  Mem.wfFrom_write v h (Nat.zero_le i) hi

theorem Mem.wfFrom_filter {cap lo : Nat} {m : Mem α} (q : Nat × α → Bool)
    (h : Mem.wfFrom cap lo m = true) : Mem.wfFrom cap lo (m.filter q) = true := by
  induction m generalizing lo with
  | nil => rfl
  | cons c m ih =>
    obtain ⟨j, w⟩ := c
    simp only [Mem.wfFrom, Bool.and_eq_true, decide_eq_true_eq] at h
    by_cases hq : q (j, w) = true
    · rw [List.filter_cons_of_pos hq]
      simp only [Mem.wfFrom, Bool.and_eq_true, decide_eq_true_eq]
      exact ⟨h.1, ih h.2⟩
    · rw [List.filter_cons_of_neg (by simpa using hq)]
      exact ih (Mem.wfFrom_mono h.2 (by omega))

theorem Mem.wfFrom_append {cap mid lo : Nat} {m m' : Mem α} (hm : Mem.wfFrom mid lo m = true)
    (hm' : Mem.wfFrom cap mid m' = true) (hlo : lo ≤ mid) (hmid : mid ≤ cap) :
    Mem.wfFrom cap lo (m ++ m') = true := by
  induction m generalizing lo with
  | nil => exact Mem.wfFrom_mono hm' hlo
  | cons c m ih =>
    obtain ⟨j, w⟩ := c
    simp only [List.cons_append, Mem.wfFrom, Bool.and_eq_true, decide_eq_true_eq] at hm ⊢
    exact ⟨⟨hm.1.1, by omega⟩, ih hm.2 (by omega)⟩

theorem Mem.wfFrom_cells {b : Nat} (vs : List α) : Mem.wfFrom (b + vs.length) b (Mem.cells b vs) = true := by
  induction vs generalizing b with
  | nil => rfl
  | cons v vs ih =>
    have e : b + (v :: vs).length = b + 1 + vs.length := by simp; omega
    simp only [Mem.cells, Mem.wfFrom, Bool.and_eq_true, decide_eq_true_eq, e]
    exact ⟨⟨Nat.le_refl b, by omega⟩, ih⟩

theorem Mem.wfFrom_below {cap lo b : Nat} {m : Mem α} (h : Mem.wfFrom cap lo m = true) :
    Mem.wfFrom b lo (m.filter fun c => decide (c.1 < b)) = true := by
  induction m generalizing lo with
  | nil => rfl
  | cons c m ih =>
    obtain ⟨j, w⟩ := c
    simp only [Mem.wfFrom, Bool.and_eq_true, decide_eq_true_eq] at h
    by_cases hq : j < b
    · rw [List.filter_cons_of_pos (by simpa using hq)]
      simp only [Mem.wfFrom, Bool.and_eq_true, decide_eq_true_eq]
      exact ⟨⟨h.1.1, hq⟩, ih h.2⟩
    · rw [List.filter_cons_of_neg (by simpa using hq)]
      exact ih (Mem.wfFrom_mono h.2 (by omega))

theorem Mem.wfFrom_above {cap lo b : Nat} {m : Mem α} (h : Mem.wfFrom cap lo m = true) :
    Mem.wfFrom cap b (m.filter fun c => decide (b ≤ c.1)) = true := by
  induction m generalizing lo with
  | nil => rfl
  | cons c m ih =>
    obtain ⟨j, w⟩ := c
    simp only [Mem.wfFrom, Bool.and_eq_true, decide_eq_true_eq] at h
    by_cases hq : b ≤ j
    · rw [List.filter_cons_of_pos (by simpa using hq)]
      simp only [Mem.wfFrom, Bool.and_eq_true, decide_eq_true_eq]
      exact ⟨⟨hq, h.1.2⟩, Mem.wfFrom_filter _ h.2⟩
    · rw [List.filter_cons_of_neg (by simpa using hq)]
      exact ih h.2

/-- A block write below the capacity keeps the canonical form. -/
theorem Mem.wf_writeBlock {cap b : Nat} {m : Mem α} (vs : List α) (h : Mem.wf cap m = true)
    (hb : b + vs.length ≤ cap) : Mem.wf cap (Mem.writeBlock m b vs) = true := by
  have h1 : Mem.wfFrom b 0 (m.filter fun c => decide (c.1 < b)) = true := Mem.wfFrom_below h
  have h2 : Mem.wfFrom (b + vs.length) 0
      ((m.filter fun c => decide (c.1 < b)) ++ Mem.cells b vs) = true :=
    Mem.wfFrom_append h1 (Mem.wfFrom_cells vs) (Nat.zero_le b) (Nat.le_add_right b vs.length)
  exact Mem.wfFrom_append h2 (Mem.wfFrom_above h) (Nat.zero_le _) hb

end Sys2Proof.Machine
end

