-- ==== Sys2Proof/Laws/State.lean ====
section
/-! SUPPORT. One lemma per field for each named update of the state, so that no proof unfolds a record
update. -/

namespace Sys2Proof.Machine

/-! ## Error entry (60_exceptions.md R246) -/

@[simp] theorem State.raise_seq (s : State) (c : Code) (e : ErrCode) (n : Nat) :
    (s.raise c e n).seq = .error := rfl
@[simp] theorem State.raise_cfgv (s : State) (c : Code) (e : ErrCode) (n : Nat) :
    (s.raise c e n).cfgv = s.cfgv := rfl
@[simp] theorem State.raise_ecode (s : State) (c : Code) (e : ErrCode) (n : Nat) :
    (s.raise c e n).ecode = e.number := rfl
@[simp] theorem State.raise_einfo (s : State) (c : Code) (e : ErrCode) (n : Nat) :
    (s.raise c e n).einfo = einfoOf n := rfl
@[simp] theorem State.raise_eop (s : State) (c : Code) (e : ErrCode) (n : Nat) :
    (s.raise c e n).eop = c := rfl
@[simp] theorem State.raise_d (s : State) (c : Code) (e : ErrCode) (n : Nat) :
    (s.raise c e n).d = s.d := rfl
@[simp] theorem State.raise_p (s : State) (c : Code) (e : ErrCode) (n : Nat) :
    (s.raise c e n).p = s.p := rfl
@[simp] theorem State.raise_ric (s : State) (c : Code) (e : ErrCode) (n : Nat) :
    (s.raise c e n).ric = s.ric := rfl
@[simp] theorem State.raise_func (s : State) (c : Code) (e : ErrCode) (n : Nat) :
    (s.raise c e n).func = s.func := rfl
@[simp] theorem State.raise_pay (s : State) (c : Code) (e : ErrCode) (n : Nat) :
    (s.raise c e n).pay = s.pay := rfl
@[simp] theorem State.raise_cw (s : State) (c : Code) (e : ErrCode) (n : Nat) :
    (s.raise c e n).cw = s.cw := rfl
@[simp] theorem State.raise_mtype (s : State) (c : Code) (e : ErrCode) (n : Nat) :
    (s.raise c e n).mtype = s.mtype := rfl
@[simp] theorem State.raise_len (s : State) (c : Code) (e : ErrCode) (n : Nat) :
    (s.raise c e n).len = s.len := rfl
@[simp] theorem State.raise_ngrp (s : State) (c : Code) (e : ErrCode) (n : Nat) :
    (s.raise c e n).ngrp = s.ngrp := rfl
@[simp] theorem State.raise_nbits (s : State) (c : Code) (e : ErrCode) (n : Nat) :
    (s.raise c e n).nbits = s.nbits := rfl
@[simp] theorem State.raise_nsamp (s : State) (c : Code) (e : ErrCode) (n : Nat) :
    (s.raise c e n).nsamp = s.nsamp := rfl
@[simp] theorem State.raise_cfgCenter (s : State) (c : Code) (e : ErrCode) (n : Nat) :
    (s.raise c e n).cfgCenter = s.cfgCenter := rfl
@[simp] theorem State.raise_cfgBaud (s : State) (c : Code) (e : ErrCode) (n : Nat) :
    (s.raise c e n).cfgBaud = s.cfgBaud := rfl
@[simp] theorem State.raise_cfgDev (s : State) (c : Code) (e : ErrCode) (n : Nat) :
    (s.raise c e n).cfgDev = s.cfgDev := rfl
@[simp] theorem State.raise_cfgInvert (s : State) (c : Code) (e : ErrCode) (n : Nat) :
    (s.raise c e n).cfgInvert = s.cfgInvert := rfl
@[simp] theorem State.raise_cfgFs (s : State) (c : Code) (e : ErrCode) (n : Nat) :
    (s.raise c e n).cfgFs = s.cfgFs := rfl
@[simp] theorem State.raise_cfgPower (s : State) (c : Code) (e : ErrCode) (n : Nat) :
    (s.raise c e n).cfgPower = s.cfgPower := rfl
@[simp] theorem State.raise_txt (s : State) (c : Code) (e : ErrCode) (n : Nat) :
    (s.raise c e n).txt = s.txt := rfl
@[simp] theorem State.raise_grp (s : State) (c : Code) (e : ErrCode) (n : Nat) :
    (s.raise c e n).grp = s.grp := rfl
@[simp] theorem State.raise_bit (s : State) (c : Code) (e : ErrCode) (n : Nat) :
    (s.raise c e n).bit = s.bit := rfl
@[simp] theorem State.raise_smp (s : State) (c : Code) (e : ErrCode) (n : Nat) :
    (s.raise c e n).smp = s.smp := rfl
@[simp] theorem State.raise_phase (s : State) (c : Code) (e : ErrCode) (n : Nat) :
    (s.raise c e n).phase = s.phase := rfl
@[simp] theorem State.raise_curOp (s : State) (c : Code) (e : ErrCode) (n : Nat) :
    (s.raise c e n).curOp = s.curOp := rfl
@[simp] theorem State.raise_resets (s : State) (c : Code) (e : ErrCode) (n : Nat) :
    (s.raise c e n).resets = s.resets := rfl
@[simp] theorem State.raise_rdata (s : State) (c : Code) (e : ErrCode) (n : Nat) :
    (s.raise c e n).rdata = s.rdata := rfl
@[simp] theorem State.raise_prog (s : State) (c : Code) (e : ErrCode) (n : Nat) :
    (s.raise c e n).prog = s.prog := rfl

/-! ## The RESET operation (45_control_ops.md R224) -/

@[simp] theorem State.softReset_seq (s : State) : s.softReset.seq = .idle := rfl
@[simp] theorem State.softReset_cfgv (s : State) : s.softReset.cfgv = s.cfgv := rfl
@[simp] theorem State.softReset_ecode (s : State) : s.softReset.ecode = 0 := rfl
@[simp] theorem State.softReset_einfo (s : State) : s.softReset.einfo = 0 := rfl
@[simp] theorem State.softReset_eop (s : State) : s.softReset.eop = 0 := rfl
@[simp] theorem State.softReset_d (s : State) : s.softReset.d = s.d := rfl
@[simp] theorem State.softReset_p (s : State) : s.softReset.p = s.p := rfl
@[simp] theorem State.softReset_ric (s : State) : s.softReset.ric = s.ric := rfl
@[simp] theorem State.softReset_func (s : State) : s.softReset.func = s.func := rfl
@[simp] theorem State.softReset_pay (s : State) : s.softReset.pay = s.pay := rfl
@[simp] theorem State.softReset_cw (s : State) : s.softReset.cw = s.cw := rfl
@[simp] theorem State.softReset_mtype (s : State) : s.softReset.mtype = s.mtype := rfl
@[simp] theorem State.softReset_len (s : State) : s.softReset.len = 0 := rfl
@[simp] theorem State.softReset_ngrp (s : State) : s.softReset.ngrp = 0 := rfl
@[simp] theorem State.softReset_nbits (s : State) : s.softReset.nbits = 0 := rfl
@[simp] theorem State.softReset_nsamp (s : State) : s.softReset.nsamp = 0 := rfl
@[simp] theorem State.softReset_cfgCenter (s : State) : s.softReset.cfgCenter = s.cfgCenter := rfl
@[simp] theorem State.softReset_cfgBaud (s : State) : s.softReset.cfgBaud = s.cfgBaud := rfl
@[simp] theorem State.softReset_cfgDev (s : State) : s.softReset.cfgDev = s.cfgDev := rfl
@[simp] theorem State.softReset_cfgInvert (s : State) : s.softReset.cfgInvert = s.cfgInvert := rfl
@[simp] theorem State.softReset_cfgFs (s : State) : s.softReset.cfgFs = s.cfgFs := rfl
@[simp] theorem State.softReset_cfgPower (s : State) : s.softReset.cfgPower = s.cfgPower := rfl
@[simp] theorem State.softReset_txt (s : State) : s.softReset.txt = s.txt := rfl
@[simp] theorem State.softReset_grp (s : State) : s.softReset.grp = s.grp := rfl
@[simp] theorem State.softReset_bit (s : State) : s.softReset.bit = s.bit := rfl
@[simp] theorem State.softReset_smp (s : State) : s.softReset.smp = s.smp := rfl
@[simp] theorem State.softReset_phase (s : State) : s.softReset.phase = 0 := rfl
@[simp] theorem State.softReset_curOp (s : State) : s.softReset.curOp = s.curOp := rfl
@[simp] theorem State.softReset_resets (s : State) : s.softReset.resets = s.resets := rfl
@[simp] theorem State.softReset_rdata (s : State) : s.softReset.rdata = s.rdata := rfl
@[simp] theorem State.softReset_prog (s : State) : s.softReset.prog = s.prog := rfl

/-! ## The hardware reset (10_state.md R50) -/

@[simp] theorem State.hardReset_seq (s : State) :
    s.hardReset.seq = .idle := rfl
@[simp] theorem State.hardReset_cfgv (s : State) :
    s.hardReset.cfgv = ⟨false, false, false, false, false, false⟩ := rfl
@[simp] theorem State.hardReset_ecode (s : State) :
    s.hardReset.ecode = 0 := rfl
@[simp] theorem State.hardReset_einfo (s : State) :
    s.hardReset.einfo = 0 := rfl
@[simp] theorem State.hardReset_eop (s : State) :
    s.hardReset.eop = 0 := rfl
@[simp] theorem State.hardReset_d (s : State) :
    s.hardReset.d = Config.resetD (s.resets + 1) := rfl
@[simp] theorem State.hardReset_p (s : State) :
    s.hardReset.p = Config.resetP (s.resets + 1) := rfl
@[simp] theorem State.hardReset_ric (s : State) :
    s.hardReset.ric = Config.resetRic (s.resets + 1) := rfl
@[simp] theorem State.hardReset_func (s : State) :
    s.hardReset.func = Config.resetFunc (s.resets + 1) := rfl
@[simp] theorem State.hardReset_pay (s : State) :
    s.hardReset.pay = Config.resetPay (s.resets + 1) := rfl
@[simp] theorem State.hardReset_cw (s : State) :
    s.hardReset.cw = Config.resetCw (s.resets + 1) := rfl
@[simp] theorem State.hardReset_mtype (s : State) :
    s.hardReset.mtype = Config.resetType (s.resets + 1) := rfl
@[simp] theorem State.hardReset_len (s : State) :
    s.hardReset.len = 0 := rfl
@[simp] theorem State.hardReset_ngrp (s : State) :
    s.hardReset.ngrp = 0 := rfl
@[simp] theorem State.hardReset_nbits (s : State) :
    s.hardReset.nbits = 0 := rfl
@[simp] theorem State.hardReset_nsamp (s : State) :
    s.hardReset.nsamp = 0 := rfl
@[simp] theorem State.hardReset_cfgCenter (s : State) :
    s.hardReset.cfgCenter = Config.resetCenter (s.resets + 1) := rfl
@[simp] theorem State.hardReset_cfgBaud (s : State) :
    s.hardReset.cfgBaud = Config.resetBaud (s.resets + 1) := rfl
@[simp] theorem State.hardReset_cfgDev (s : State) :
    s.hardReset.cfgDev = Config.resetDev (s.resets + 1) := rfl
@[simp] theorem State.hardReset_cfgInvert (s : State) :
    s.hardReset.cfgInvert = Config.resetInvert (s.resets + 1) := rfl
@[simp] theorem State.hardReset_cfgFs (s : State) :
    s.hardReset.cfgFs = Config.resetFs (s.resets + 1) := rfl
@[simp] theorem State.hardReset_cfgPower (s : State) :
    s.hardReset.cfgPower = Config.resetPower (s.resets + 1) := rfl
@[simp] theorem State.hardReset_txt (s : State) :
    s.hardReset.txt = [] := rfl
@[simp] theorem State.hardReset_grp (s : State) :
    s.hardReset.grp = [] := rfl
@[simp] theorem State.hardReset_bit (s : State) :
    s.hardReset.bit = [] := rfl
@[simp] theorem State.hardReset_smp (s : State) :
    s.hardReset.smp = [] := rfl
@[simp] theorem State.hardReset_phase (s : State) :
    s.hardReset.phase = 0 := rfl
@[simp] theorem State.hardReset_curOp (s : State) :
    s.hardReset.curOp = none := rfl
@[simp] theorem State.hardReset_resets (s : State) :
    s.hardReset.resets = s.resets + 1 := rfl
@[simp] theorem State.hardReset_rdata (s : State) :
    s.hardReset.rdata = s.rdata := rfl
@[simp] theorem State.hardReset_prog (s : State) :
    s.hardReset.prog = s.prog := rfl

/-! ## Elements of the memories -/

/-- Error entry leaves every element of every memory. -/
@[simp] theorem State.raise_txtAt (s : State) (c : Code) (e : ErrCode) (n i : Nat) :
    (s.raise c e n).txtAt i = s.txtAt i := rfl
@[simp] theorem State.raise_grpAt (s : State) (c : Code) (e : ErrCode) (n i : Nat) :
    (s.raise c e n).grpAt i = s.grpAt i := rfl
@[simp] theorem State.raise_bitAt (s : State) (c : Code) (e : ErrCode) (n i : Nat) :
    (s.raise c e n).bitAt i = s.bitAt i := rfl
@[simp] theorem State.raise_smpAt (s : State) (c : Code) (e : ErrCode) (n i : Nat) :
    (s.raise c e n).smpAt i = s.smpAt i := rfl

end Sys2Proof.Machine
end

