-- ==== Sys2Proof/Laws/Ops.lean ====
section
/-! SUPPORT. What each shared operation can do, said once: if it answers a next state, then one of these
cases holds. -/

namespace Sys2Proof.Machine

variable {s t : State}

/-! ## Starting an operation -/

theorem runOp_idle (c : Code) (body : State → OpResult) (h : s.seq = .idle) :
    runOp c body s = (match body s with
      | .done t => .next t
      | .err e n => .next (s.raise c e n)) := by
  cases hb : body s <;> simp only [runOp, h, hb]

theorem runOp_error (c : Code) (body : State → OpResult) (h : s.seq = .error) :
    runOp c body s = .next s := by
  simp only [runOp, h]

theorem runOp_busy (c : Code) (body : State → OpResult) (h : s.seq = .busy) :
    runOp c body s = .refused .hostAccessWhileBusy := by
  simp only [runOp, h]

/-- An operation that answers a next state was ignored in `ERROR`, or ended, or raised its error. -/
theorem runOp_next {c : Code} {body : State → OpResult} (h : runOp c body s = .next t) :
    (s.seq = .error ∧ t = s) ∨ (s.seq = .idle ∧ body s = .done t) ∨
      (s.seq = .idle ∧ ∃ e n, body s = .err e n ∧ t = s.raise c e n) := by
  cases hs : s.seq with
  | busy => rw [runOp_busy c body hs] at h; cases h
  | error => rw [runOp_error c body hs] at h; cases h; exact .inl ⟨rfl, rfl⟩
  | idle =>
    rw [runOp_idle c body hs] at h
    cases hb : body s with
    | done u => rw [hb] at h; cases h; exact .inr (.inl ⟨rfl, rfl⟩)
    | err e n => rw [hb] at h; cases h; exact .inr (.inr ⟨rfl, e, n, rfl, rfl⟩)

theorem hostAccess_of_ne_busy (act : State → Host.Outcome State Fault Refusal) (h : s.seq ≠ .busy) :
    hostAccess act s = act s := by
  cases hs : s.seq with
  | busy => exact absurd hs h
  | idle => simp only [hostAccess, hs]
  | error => simp only [hostAccess, hs]

theorem hostAccess_busy (act : State → Host.Outcome State Fault Refusal) (h : s.seq = .busy) :
    hostAccess act s = .refused .hostAccessWhileBusy := by
  simp only [hostAccess, h]

/-- A host access that answers a next state was made while the block was not busy. -/
theorem hostAccess_next {act : State → Host.Outcome State Fault Refusal}
    (h : hostAccess act s = .next t) : s.seq ≠ .busy ∧ act s = .next t := by
  by_cases hs : s.seq = .busy
  · rw [hostAccess_busy act hs] at h; cases h
  · exact ⟨hs, by rw [← hostAccess_of_ne_busy act hs]; exact h⟩

/-! ## The bodies of the operations -/

/-- A pack operation that ends wrote the groups of a text of legal characters that fits. -/
theorem pack_done {legal : Byte → Bool} {stream : List Byte → List Bit}
    (h : pack legal stream s = .done t) :
    s.len.toNat ≤ Config.maxChars ∧ s.text.findIdx? (fun c => !legal c) = none ∧
      t = { s with
        grp := Mem.writeBlock s.grp 0 (groups (pad (stream s.text)))
        ngrp := BitVec.ofNat 32 (groups (pad (stream s.text))).length } := by
  simp only [pack] at h
  split at h
  · cases h
  · split at h
    · cases h
    · next hle hn => cases h; exact ⟨by omega, hn, rfl⟩

/-- A pack operation raises `E_LEN` for the length, else `E_CHAR` for the first bad character. -/
theorem pack_err {legal : Byte → Bool} {stream : List Byte → List Bit} {e : ErrCode} {n : Nat}
    (h : pack legal stream s = .err e n) :
    (Config.maxChars < s.len.toNat ∧ e = .len ∧ n = s.len.toNat) ∨
      (s.len.toNat ≤ Config.maxChars ∧ s.text.findIdx? (fun c => !legal c) = some n ∧ e = .char) := by
  simp only [pack] at h
  split at h
  · next hgt => cases h; exact .inl ⟨hgt, rfl, rfl⟩
  · split at h
    · next hle i hi => cases h; exact .inr ⟨by omega, hi, rfl⟩
    · cases h

theorem assemble_done (h : assemble s = .done t) :
    s.ngrp.toNat ≤ Config.maxGrp ∧
      t = { s with
        bit := Mem.writeBlock s.bit 0 (transmission s.ric s.func s.groupList)
        nbits := BitVec.ofNat 32 (transmission s.ric s.func s.groupList).length } := by
  simp only [assemble] at h
  split at h
  · cases h
  · next hle => cases h; exact ⟨by omega, rfl⟩

theorem assemble_err {e : ErrCode} {n : Nat} (h : assemble s = .err e n) :
    Config.maxGrp < s.ngrp.toNat ∧ e = .cap ∧ n = s.ngrp.toNat := by
  simp only [assemble] at h
  split at h
  · next hgt => cases h; exact ⟨hgt, rfl, rfl⟩
  · cases h

theorem modulate_done {cap : Nat} (h : modulate cap s = .done t) :
    configCheck s = none ∧ s.nbits.toNat ≤ Config.maxBits ∧ s.nbits.toNat * s.spb ≤ cap ∧
      t = { s with
        smp := Mem.writeBlock s.smp 0
          ((phases s.cfgFs.toNat s.cfgDev.toNat s.cfgInvert 0 (sampleBits s.spb s.bitList)).map
            fun ph => Config.iq ph s.cfgFs.toNat)
        nsamp := BitVec.ofNat 32 (s.nbits.toNat * s.spb)
        phase := lastPhase s.cfgFs.toNat s.cfgDev.toNat s.cfgInvert 0 (sampleBits s.spb s.bitList) } := by
  simp only [modulate] at h
  split at h
  · cases h
  · next hc =>
    split at h
    · cases h
    · split at h
      · cases h
      · next h1 h2 => cases h; exact ⟨hc, by omega, by omega, rfl⟩

theorem modulate_err {cap : Nat} {e : ErrCode} {n : Nat} (h : modulate cap s = .err e n) :
    (configCheck s = some n ∧ e = .cfg) ∨
      (configCheck s = none ∧ e = .cap ∧
        ((Config.maxBits < s.nbits.toNat ∧ n = s.nbits.toNat) ∨
          (s.nbits.toNat ≤ Config.maxBits ∧ cap < s.nbits.toNat * s.spb ∧ n = s.nbits.toNat * s.spb))) := by
  simp only [modulate] at h
  split at h
  · next k hk => cases h; exact .inl ⟨hk, rfl⟩
  · next hc =>
    split at h
    · next h1 => cases h; exact .inr ⟨hc, rfl, .inl ⟨h1, rfl⟩⟩
    · split at h
      · next h1 h2 => cases h; exact .inr ⟨hc, rfl, .inr ⟨by omega, h2, rfl⟩⟩
      · cases h

/-- A configuration without a failing check is one `MOD` accepts. -/
theorem configCheck_none (h : configCheck s = none) :
    (s.cfgv.baud = true ∧ s.cfgv.dev = true ∧ s.cfgv.invert = true ∧ s.cfgv.fs = true) ∧
      0 < s.cfgBaud.toNat ∧ 0 < s.cfgFs.toNat ∧ s.cfgFs.toNat % s.cfgBaud.toNat = 0 := by
  simp only [configCheck] at h
  split at h
  · cases h
  · split at h
    · cases h
    · split at h
      · cases h
      · split at h
        · cases h
        · next h1 h2 h3 h4 =>
          simp only [Bool.not_eq_true', Bool.not_eq_false, Bool.and_eq_true] at h1
          exact ⟨⟨h1.1.1.1, h1.1.1.2, h1.1.2, h1.2⟩, by omega, by omega, by omega⟩

/-- A wire word that is placed fits, and fills the 32 elements from `NBITS` on. -/
theorem placeWord_next {w : Word32} (h : placeWord w s = .next t) :
    s.seq ≠ .busy ∧ s.nbits.toNat + 32 ≤ Config.maxBits ∧
      t = { s with
        bit := Mem.writeBlock s.bit s.nbits.toNat (bitsMsb 32 w)
        nbits := s.nbits + 32 } := by
  obtain ⟨hb, h⟩ := hostAccess_next h
  split at h
  · next hf => cases h; exact ⟨hb, hf, rfl⟩
  · cases h

/-! ## Host moves -/

/-- `CMD` is register 0 and no other. -/
theorem regOf_eq_cmd {n : Nat} : regOf n = some .cmd ↔ n = 0x00 := by
  constructor
  · intro h
    by_contra h0
    rw [regOf, if_neg h0] at h
    repeat (rw [ite_eq_iff] at h; rcases h with ⟨-, h⟩ | ⟨-, h⟩; · cases h)
    cases h
  · rintro rfl; rfl

/-- A host write of a register leaves the sequencer and the error record as they are. -/
theorem regWrite_error (s : State) (r : Reg) (v : Nat) :
    (s.regWrite r v).seq = s.seq ∧ (s.regWrite r v).ecode = s.ecode
      ∧ (s.regWrite r v).einfo = s.einfo ∧ (s.regWrite r v).eop = s.eop := by
  cases r <;> exact ⟨rfl, rfl, rfl, rfl⟩

/-- A host write that answers a next state wrote a read-only register, started an operation, or stored
a value that fits. -/
theorem hostWr_next {n v : Nat} (h : hostWr n v s = .next t) :
    s.seq ≠ .busy ∧ ∃ r, regOf n = some r ∧
      ((r.readOnly = true ∧ t = s) ∨
        (r = .cmd ∧ v < 16 ∧ cmdWrite (BitVec.ofNat 4 v) s = .next t) ∨
        (r ≠ .cmd ∧ r.readOnly = false ∧ v < 2 ^ r.width ∧ t = s.regWrite r v)) := by
  obtain ⟨hb, h⟩ := hostAccess_next h
  refine ⟨hb, ?_⟩
  split at h
  · cases h
  · next r hr =>
    refine ⟨r, hr, ?_⟩
    split at h
    · next hro => cases h; exact .inl ⟨hro, rfl⟩
    · next hro =>
      split at h
      · next hv =>
        split at h
        · next hc => subst hc; exact .inr (.inl ⟨rfl, hv, h⟩)
        · next hc => cases h; exact .inr (.inr ⟨hc, by simpa using hro, hv, rfl⟩)
      · cases h

/-- A host read changes nothing but the datum it returns. -/
theorem hostRd_next {n : Nat} (h : hostRd n s = .next t) :
    ∃ r, regOf n = some r ∧ t = { s with rdata := .word (s.regRead r) } := by
  simp only [hostRd] at h
  split at h
  · next hn => cases h; exact ⟨.status, by subst hn; rfl, rfl⟩
  · obtain ⟨-, h⟩ := hostAccess_next h
    split at h
    · cases h
    · next r hr => cases h; exact ⟨r, hr, rfl⟩

/-- A host write of an element that answers a next state is of one of the three writable memories with a
value that fits, or of `SMP`, which keeps its value. -/
theorem hostWrm_next {n i v : Nat} (h : hostWrm n i v s = .next t) :
    s.seq ≠ .busy ∧
      ((n = 0 ∧ i < Config.maxChars ∧ v < 2 ^ 8 ∧
          t = { s with txt := Mem.write s.txt i (BitVec.ofNat 8 v) }) ∨
        (n = 1 ∧ i < Config.maxGrp ∧ v < 2 ^ 20 ∧
          t = { s with grp := Mem.write s.grp i (BitVec.ofNat 20 v) }) ∨
        (n = 2 ∧ i < Config.maxBits ∧ v < 2 ^ 1 ∧
          t = { s with bit := Mem.write s.bit i (BitVec.ofNat 1 v) }) ∨
        (n = 3 ∧ i < Config.maxSamp ∧ t = s)) := by
  obtain ⟨hb, h⟩ := hostAccess_next h
  refine ⟨hb, ?_⟩
  split at h
  · cases h
  · next sp hsp =>
    split at h
    · next hi =>
      simp only [spaceOf] at hsp
      split at hsp
      · next hn =>
        cases hsp
        simp only [State.memWrite] at h
        split at h
        · next hv => cases h; exact .inl ⟨hn, hi, hv, rfl⟩
        · cases h
      · split at hsp
        · next hn =>
          cases hsp
          simp only [State.memWrite] at h
          split at h
          · next hv => cases h; exact .inr (.inl ⟨hn, hi, hv, rfl⟩)
          · cases h
        · split at hsp
          · next hn =>
            cases hsp
            simp only [State.memWrite] at h
            split at h
            · next hv => cases h; exact .inr (.inr (.inl ⟨hn, hi, hv, rfl⟩))
            · cases h
          · split at hsp
            · next hn =>
              cases hsp
              cases h
              exact .inr (.inr (.inr ⟨hn, hi, rfl⟩))
            · cases hsp
    · cases h

/-- A host read of an element changes nothing but the datum it returns. -/
theorem hostRdm_next {n i : Nat} (h : hostRdm n i s = .next t) :
    ∃ sp, spaceOf n = some sp ∧ i < sp.capacity ∧ t = { s with rdata := s.memRead sp i } := by
  obtain ⟨-, h⟩ := hostAccess_next h
  split at h
  · cases h
  · next sp hsp =>
    split at h
    · next hi => cases h; exact ⟨sp, hsp, hi, rfl⟩
    · cases h

/-- `TXT` puts a text that fits into the text memory and its length into `LEN`. -/
theorem hostTxt_next {chars : List Byte} (h : hostTxt chars s = .next t) :
    s.seq ≠ .busy ∧ chars.length ≤ Config.maxChars ∧
      t = { s with txt := Mem.writeBlock s.txt 0 chars, len := BitVec.ofNat 32 chars.length } := by
  obtain ⟨hb, h⟩ := hostAccess_next h
  split at h
  · next hl => cases h; exact ⟨hb, hl, rfl⟩
  · cases h

/-- A raw write of `CMD` that answers a next state ran an instruction that has its effect at once, was
ignored or reset in `ERROR`, or left an operation in progress. -/
theorem cmdWrite_next {c : Code} (h : cmdWrite c s = .next t) :
    (s.seq = .error ∧ exec (decodeCode c) s = .next t) ∨
      (s.seq = .idle ∧ (c = 0#4 ∨ 8#4 ≤ c) ∧ exec (decodeCode c) s = .next t) ∨
      (s.seq = .idle ∧ c ≠ 0#4 ∧ c < 8#4 ∧ t = { s with seq := .busy, curOp := some c }) := by
  simp only [cmdWrite] at h
  cases hs : s.seq with
  | busy => rw [hs] at h; cases h
  | error => rw [hs] at h; exact .inl ⟨rfl, h⟩
  | idle =>
    rw [hs] at h
    simp only at h
    split at h
    · next hc => exact .inr (.inl ⟨rfl, hc, h⟩)
    · next hc =>
      cases h
      have hc : ¬ c = 0#4 ∧ ¬ 8#4 ≤ c := ⟨fun e => hc (.inl e), fun e => hc (.inr e)⟩
      exact .inr (.inr ⟨rfl, hc.1, by simpa [BitVec.not_le] using hc.2, rfl⟩)

/-- What goes on after a move goes on from its next state, or the move ended in `ERROR`. -/
theorem thenUnlessError_next {o : Host.Outcome State Fault Refusal}
    {k : State → Host.Outcome State Fault Refusal} (h : thenUnlessError o k = .next t) :
    ∃ u, o = .next u ∧ ((u.seq = .error ∧ t = u) ∨ (u.seq ≠ .error ∧ k u = .next t)) := by
  cases o with
  | fault r => cases h
  | refused r => cases h
  | next u =>
    simp only [thenUnlessError] at h
    split at h
    · next he => cases h; exact ⟨_, rfl, .inl ⟨he, rfl⟩⟩
    · next he => exact ⟨u, rfl, .inr ⟨he, h⟩⟩

/-- The block's turn ends the operation in progress, or leaves a block with none as it is. -/
theorem blockTurn_next (h : blockTurn s = .next t) :
    (∃ c, s.curOp = some c ∧ exec (decodeCode c) { s with seq := .idle, curOp := none } = .next t) ∨
      (s.curOp = none ∧ t = s) := by
  simp only [blockTurn] at h
  split at h
  · next c hc => exact .inl ⟨c, hc, h⟩
  · next hc => cases h; exact .inr ⟨hc, rfl⟩

end Sys2Proof.Machine
end

