-- ==== Sys2Proof/Laws/PerInstr.lean ====
section
/-! SUPPORT. A statement about every constructor of Instr, one lemma each: the word of an instruction has
the fixed bits of its row of spec/opcode_table.json. -/

namespace Sys2Proof.Laws.TableBits

/-- The `mask` of an instruction's row: which bits the row fixes. -/
def rowMask : Instr → Word32
  | .reset => 0xF#32
  | .bch => 0xF#32
  | .addrcw => 0xF#32
  | .msgcw => 0xF#32
  | .packa => 0xF#32
  | .packn => 0xF#32
  | .asm => 0xF#32
  | .mod => 0xF#32
  | .unassigned _ => 0x8#32
  | .addressCw _ _ _ _ => 0x80000000#32
  | .messageCw _ _ _ => 0x00000800#32
  | .idleCw => 0xFFFFFFFF#32
  | .syncCw => 0xFFFFFFFF#32
  | .preambleWord => 0xFFFFFFFF#32

/-- The `match` of an instruction's row: the values of the bits the row fixes. -/
def rowMatch : Instr → Word32
  | .reset => 0x0#32
  | .bch => 0x1#32
  | .addrcw => 0x2#32
  | .msgcw => 0x3#32
  | .packa => 0x4#32
  | .packn => 0x5#32
  | .asm => 0x6#32
  | .mod => 0x7#32
  | .unassigned _ => 0x8#32
  | .addressCw _ _ _ _ => 0x00000000#32
  | .messageCw _ _ _ => 0x00000800#32
  | .idleCw => 0x7A89C197#32
  | .syncCw => 0x7CD215D8#32
  | .preambleWord => 0xAAAAAAAA#32

/-- The instruction's word has the fixed bits of its row (30_encoding.md R92, R93, R98, R99, R110, R111). -/
def Statement (i : Instr) : Prop := i.word &&& rowMask i = rowMatch i

theorem reset : Statement .reset := by unfold Statement; decide
theorem bch : Statement .bch := by unfold Statement; decide
theorem addrcw : Statement .addrcw := by unfold Statement; decide
theorem msgcw : Statement .msgcw := by unfold Statement; decide
theorem packa : Statement .packa := by unfold Statement; decide
theorem packn : Statement .packn := by unfold Statement; decide
theorem asm : Statement .asm := by unfold Statement; decide
theorem mod : Statement .mod := by unfold Statement; decide
theorem unassigned (c : BitVec 3) : Statement (.unassigned c) := by
  unfold Statement; revert c; decide
theorem addressCw (a : BitVec 18) (f : BitVec 2) (p : BitVec 10) (e : Bit) :
    Statement (.addressCw a f p e) := by
  refine BitVec.eq_of_getLsbD_eq fun i hi => ?_
  by_cases h : i = 31
  · subst h
    have ha : (Machine.addressWord a f p e).getLsbD 31 = false := by
      rw [Machine.getLsbD_addressWord]; simp
    simp only [Instr.word, rowMatch, BitVec.getLsbD_and, ha, Bool.false_and, BitVec.getLsbD_zero]
  · have hm : (0x80000000#32).getLsbD i = false := by
      have : ∀ k : Fin 32, k.val ≠ 31 → (0x80000000#32).getLsbD k.val = false := by decide
      exact this ⟨i, hi⟩ h
    simp only [rowMask, rowMatch, BitVec.getLsbD_and, hm, Bool.and_false, BitVec.getLsbD_zero]
theorem messageCw (m : Group) (p : BitVec 10) (e : Bit) : Statement (.messageCw m p e) := by
  refine BitVec.eq_of_getLsbD_eq fun i hi => ?_
  by_cases h : i = 11
  · subst h
    simp [Instr.word, rowMask, rowMatch, Machine.getLsbD_messageWord]
  · have hm : (0x00000800#32).getLsbD i = false := by
      have : ∀ k : Fin 32, k.val ≠ 11 → (0x00000800#32).getLsbD k.val = false := by decide
      exact this ⟨i, hi⟩ h
    simp only [rowMask, rowMatch, BitVec.getLsbD_and, hm, Bool.and_false]
theorem idleCw : Statement .idleCw := by unfold Statement; decide
theorem syncCw : Statement .syncCw := by unfold Statement; decide
theorem preambleWord : Statement .preambleWord := by unfold Statement; decide

end Sys2Proof.Laws.TableBits
end

