-- ==== Sys2Proof/Laws/Streams.lean ====
section
/-! SUPPORT. How long the streams, groups, transmissions and sample sequences are, and the bits at their
places. -/

namespace Sys2Proof.Machine

/-! ## Packing -/

@[simp] theorem length_text (s : State) : s.text.length = s.len.toNat := by simp [State.text]

@[simp] theorem length_groupList (s : State) : s.groupList.length = s.ngrp.toNat := by
  simp [State.groupList]

@[simp] theorem length_bitList (s : State) : s.bitList.length = s.nbits.toNat := by
  simp [State.bitList]

theorem length_firstGroups (k : Nat) (bs : List Bit) : (firstGroups k bs).length = k := by
  induction k generalizing bs with
  | zero => rfl
  | succ k ih => simp [firstGroups, ih]

/-- 42_bit_packer.md R155: seven bits a character. -/
theorem length_streamAlpha (text : List Byte) : (streamAlpha text).length = 7 * text.length := by
  induction text with
  | nil => rfl
  | cons c text ih =>
    simp only [streamAlpha, List.flatMap_cons, List.length_append, List.length_cons] at ih ⊢
    simp only [ih, alphaBits, length_bitsLsb]
    omega

/-- 42_bit_packer.md R156: four bits a character. -/
theorem length_streamNum (n : NumTable) (text : List Byte) :
    (streamNum n text).length = 4 * text.length := by
  induction text with
  | nil => rfl
  | cons c text ih =>
    simp only [streamNum, List.flatMap_cons, List.length_append, List.length_cons] at ih ⊢
    simp only [ih, numBits, length_bitsLsb]
    omega

/-- 42_bit_packer.md R158: the padded length is the next multiple of 20. -/
theorem length_pad (bs : List Bit) : (pad bs).length = (bs.length + 19) / 20 * 20 := by
  simp only [pad, List.length_append, List.length_replicate]
  omega

/-- 42_bit_packer.md R159: the number of groups. -/
theorem length_groups_pad (bs : List Bit) : (groups (pad bs)).length = (bs.length + 19) / 20 := by
  rw [groups, length_firstGroups, length_pad]
  omega

/-- Element `j` of a concatenation of pieces of one length. -/
theorem getElem?_flatMap_const {α β : Type} {n : Nat} (hn : 0 < n) (f : α → List β)
    (hf : ∀ a, (f a).length = n) (xs : List α) (j : Nat) :
    (xs.flatMap f)[j]? = xs[j / n]?.bind fun a => (f a)[j % n]? := by
  induction xs generalizing j with
  | nil => simp
  | cons a xs ih =>
    rw [List.flatMap_cons, List.getElem?_append, hf a]
    by_cases h : j < n
    · simp [h, Nat.div_eq_of_lt h, Nat.mod_eq_of_lt h]
    · have h1 : j / n = (j - n) / n + 1 := by
        rw [← Nat.sub_add_cancel (Nat.not_lt.mp h), Nat.add_div_right _ hn]
        simp
      have h2 : j % n = (j - n) % n := by
        rw [Nat.mod_eq_sub_mod (Nat.not_lt.mp h)]
      rw [if_neg h, ih, h1, h2, List.getElem?_cons_succ]

/-- Group `k` of a stream takes its bits `20k` to `20k + 19` (42_bit_packer.md R157). -/
theorem getElem?_firstGroups (n : Nat) (bs : List Bit) {k : Nat} (hk : k < n) :
    (firstGroups n bs)[k]? = some (wordMsb 20 ((bs.drop (20 * k)).take 20)) := by
  induction n generalizing bs k with
  | zero => omega
  | succ n ih =>
    cases k with
    | zero => simp [firstGroups]
    | succ k =>
      rw [firstGroups, List.getElem?_cons_succ, ih (bs.drop 20) (by omega), List.drop_drop]
      rw [show 20 + 20 * k = 20 * (k + 1) by omega]

/-! ## Assembling -/

/-- 30_encoding.md R102: the frame is the address modulo 8. -/
theorem frame_eq (ric : BitVec 21) : frame ric = ric.toNat % 8 := by
  simp only [frame, BitVec.toNat_and, BitVec.toNat_ofNat, Nat.reducePow, Nat.reduceMod]
  exact Nat.and_two_pow_sub_one_eq_mod _ 3

/-- The machine's slot of the address codeword is the spec's (43_frame_assembler.md R177). -/
theorem firstSlot_eq (ric : BitVec 21) : firstSlot ric = addressSlot ric := by
  rw [firstSlot, frame_eq, addressSlot]

theorem addressSlot_le (ric : BitVec 21) : addressSlot ric ≤ 14 := by
  have := Nat.mod_lt ric.toNat (show 0 < 8 by omega)
  simp only [addressSlot]
  omega

theorem length_batches (n : Nat) (ws : List Word32) (h : ws.length = 16 * n) :
    (batches n ws).length = 17 * n := by
  induction n generalizing ws with
  | zero => rfl
  | succ n ih =>
    have hd : (ws.drop 16).length = 16 * n := by rw [List.length_drop]; omega
    simp only [batches, List.length_cons, List.length_append, List.length_take, ih _ hd]
    omega

/-- 43_frame_assembler.md R179: sixteen slots for each batch. -/
theorem length_slots (ric : BitVec 21) (func : BitVec 2) (g : List Group) :
    (slots ric func g).length = 16 * batchCount ric g.length := by
  simp only [slots, batchCount, messageCws, List.length_append, List.length_replicate,
    List.length_cons, List.length_map, firstSlot_eq]
  omega

/-- 30_encoding.md R99: 576 bits. -/
theorem length_preamble : preamble.length = 576 := by
  simp only [preamble, List.length_flatten, List.map_replicate, List.sum_replicate_nat]
  rfl

theorem length_flatMap_bitsMsb (ws : List Word32) : (ws.flatMap (bitsMsb 32)).length = 32 * ws.length := by
  induction ws with
  | nil => rfl
  | cons w ws ih =>
    simp only [List.flatMap_cons, List.length_append, length_bitsMsb, ih, List.length_cons]
    omega

/-- 30_encoding.md R101: 576 bits and 544 for each batch. -/
theorem length_transmission (ric : BitVec 21) (func : BitVec 2) (g : List Group) :
    (transmission ric func g).length = 576 + 544 * batchCount ric g.length := by
  have h : (slots ric func g).length / 16 = batchCount ric g.length := by rw [length_slots]; omega
  simp only [transmission, List.length_append, length_preamble, length_flatMap_bitsMsb, h]
  rw [length_batches _ _ (length_slots ric func g)]
  omega

/-! ## Modulating -/

/-- The machine's sign of the frequency offset is the table's (44_fsk_modulator.md R197). -/
theorem toneSign_eq (inv b : Bit) : toneSign inv b = offsetSign inv b := by
  revert inv b; decide

theorem offsetSign_flip (inv b : Bit) : offsetSign (inv ^^^ 1#1) b = -offsetSign inv b := by
  revert inv b; decide

/-- The machine's samples per bit are the spec's (44_fsk_modulator.md R196). -/
theorem spb_eq (s : State) : s.spb = samplesPerBit s := rfl

/-- The phases of two stretches of bits, one after the other. -/
theorem phases_append (fs dev : Nat) (inv : Bit) (ph : Nat) (bs cs : List Bit) :
    phases fs dev inv ph (bs ++ cs)
      = phases fs dev inv ph bs ++ phases fs dev inv (lastPhase fs dev inv ph bs) cs := by
  induction bs generalizing ph with
  | nil => rfl
  | cons b bs ih => simp only [List.cons_append, phases, ih]; rfl

@[simp] theorem length_phases (fs dev : Nat) (inv : Bit) (ph : Nat) (bs : List Bit) :
    (phases fs dev inv ph bs).length = bs.length := by
  induction bs generalizing ph with
  | nil => rfl
  | cons b bs ih => simp [phases, ih]

/-- 44_fsk_modulator.md R199: `SPB` samples for each bit. -/
@[simp] theorem length_sampleBits (k : Nat) (bs : List Bit) :
    (sampleBits k bs).length = bs.length * k := by
  induction bs with
  | nil => simp [sampleBits]
  | cons b bs ih =>
    simp only [sampleBits, List.flatMap_cons, List.length_append, List.length_replicate,
      List.length_cons] at ih ⊢
    rw [ih, Nat.add_mul]
    omega

/-- The phase stays below `CFG_FS` (44_fsk_modulator.md R203). -/
theorem advance_lt {fs : Nat} (dev : Nat) (inv : Bit) (ph : Nat) (b : Bit) (hf : 0 < fs) :
    advance fs dev inv ph b < fs := by
  have h1 := Int.emod_lt_of_pos ((ph : Int) + toneSign inv b * (dev : Int)) (by omega : (0 : Int) < fs)
  have h2 := Int.emod_nonneg ((ph : Int) + toneSign inv b * (dev : Int)) (by omega : (fs : Int) ≠ 0)
  simp only [advance]
  omega

theorem lastPhase_lt {fs : Nat} (dev : Nat) (inv : Bit) (ph : Nat) (bs : List Bit) (hf : 0 < fs)
    (h : ph < fs) : lastPhase fs dev inv ph bs < fs := by
  induction bs generalizing ph with
  | nil => exact h
  | cons b bs ih => exact ih _ (advance_lt dev inv ph b hf)

end Sys2Proof.Machine
end

