-- ==== Sys2Proof/Tests/Slice0.lean ====
section
/-! SUPPORT. Tests: the well-formedness smoke tests, words written out from the spec's encodings, the vectors
of spec/95_test_vectors.md (named by their ids), and for every statement with hypotheses a concrete
state and operands that meet them. -/

namespace Sys2Proof.Tests

open Sys2Proof.Machine

/-! ## Helpers -/

/-- What `f` shows of the next state, none if there is none. -/
def after {α : Type} (o : Host.Outcome State Fault Refusal) (f : State → α) : Option α :=
  match o with
  | .next t => some (f t)
  | .fault _ => none
  | .refused _ => none

theorem next_of_after {α : Type} {o : Host.Outcome State Fault Refusal} {f : State → α} {v : α}
    (h : after o f = some v) : ∃ t, o = .next t ∧ f t = v := by
  cases o with
  | next t => exact ⟨t, rfl, Option.some.inj h⟩
  | fault r => cases h
  | refused r => cases h

/-- The state after reset. -/
abbrev base : State := State.reset

/-- `base` with a text in `TXT` and its length in `LEN`. -/
abbrev withText (cs : List Byte) : State :=
  { base with txt := Mem.cells 0 cs, len := BitVec.ofNat 32 cs.length }

/-- `base` with the four configuration registers `MOD` reads written, and bits in `BIT`. -/
abbrev withBits (fs baud dev : BitVec 32) (inv : Bit) (bs : List Bit) : State :=
  { base with
    cfgFs := fs, cfgBaud := baud, cfgDev := dev, cfgInvert := inv
    cfgv := ⟨false, true, true, true, true, false⟩
    bit := Mem.cells 0 bs, nbits := BitVec.ofNat 32 bs.length }

/-- The state of vector VF1. -/
abbrev vf1 : State := { base with ric := 1234567, func := 3, grp := [(0, 0x13FFF)], ngrp := 1 }

/-! ## Well-formedness: an ill-formed term for each check -/

/-- An odd function code is read as a message codeword (30_encoding.md R115). -/
theorem test_wf_refuses_odd_function : ¬ WellFormed (.addressCw 0 1 0 0) := by decide
/-- The address codeword that is the idle codeword (30_encoding.md R114). -/
theorem test_wf_refuses_idle_as_address : ¬ WellFormed (.addressCw 0x3D44E 0 0x0CB 1) := by decide
/-- The address codeword that is the sync codeword (30_encoding.md R114). -/
theorem test_wf_refuses_sync_as_address : ¬ WellFormed (.addressCw 0x3E690 2 0x2EC 0) := by decide
/-- The message word that is the preamble word (30_encoding.md R93, R99). -/
theorem test_wf_refuses_preamble_as_message : ¬ WellFormed (.messageCw 0xAAAAA 0x155 0) := by decide

/-! ## Decoding: words from 30_encoding.md R92, R93, R98, R99, R110, R111 -/

theorem test_decode_reset : decodeTableWord 4 0b0000 = some .reset := by decide
theorem test_decode_bch : decodeTableWord 4 0b0001 = some .bch := by decide
theorem test_decode_addrcw : decodeTableWord 4 0b0010 = some .addrcw := by decide
theorem test_decode_msgcw : decodeTableWord 4 0b0011 = some .msgcw := by decide
theorem test_decode_packa : decodeTableWord 4 0b0100 = some .packa := by decide
theorem test_decode_packn : decodeTableWord 4 0b0101 = some .packn := by decide
theorem test_decode_asm : decodeTableWord 4 0b0110 = some .asm := by decide
theorem test_decode_mod : decodeTableWord 4 0b0111 = some .mod := by decide
theorem test_decode_unassigned_least : decodeTableWord 4 0b1000 = some (.unassigned 0) := by decide
theorem test_decode_unassigned_greatest : decodeTableWord 4 0b1111 = some (.unassigned 7) := by decide
/-- Fields `0 a f p e` with `a` = 1, `f` = 2, `p` = 0x201, `e` = 1, bit by bit. -/
theorem test_decode_address_fields :
    decodeTableWord 32 0b0_000000000000000001_10_1000000001_1
      = some (.addressCw 0b000000000000000001 0b10 0b1000000001 1) := by decide
/-- V3's neighbour VA7: `RIC` = 1234567, `FUNC` = 0. -/
theorem test_decode_address_va7 :
    decodeTableWord 32 0x4B5A0780 = some (.addressCw (154320 : BitVec 18) 0 0x3C0 0) := by decide
/-- Fields `m 1 p e` with `m` = 0x80001, `p` = 0x201, `e` = 0, bit by bit. -/
theorem test_decode_message_fields :
    decodeTableWord 32 0b10000000000000000001_1_1000000001_0
      = some (.messageCw 0x80001 0b1000000001 0) := by decide
/-- VM6, the message codeword of "H". -/
theorem test_decode_message_vm6 :
    decodeTableWord 32 0x13FFFFB3 = some (.messageCw 0x13FFF 0x3D9 1) := by decide
/-- V1, bit by bit. -/
theorem test_decode_idle :
    decodeTableWord 32 0b01111010100010011100000110010111 = some .idleCw := by decide
/-- V2, bit by bit. -/
theorem test_decode_sync :
    decodeTableWord 32 0b01111100110100100001010111011000 = some .syncCw := by decide
/-- Four bytes `0xAA`, bit by bit. -/
theorem test_decode_preamble :
    decodeTableWord 32 0b10101010101010101010101010101010 = some .preambleWord := by decide
/-- A byte above 15, a word with bit 31 set and bit 11 clear, and two bytes are nothing. -/
theorem test_decode_refuses :
    decode [0x10] = .error .codeTooWide ∧ decode [0x80, 0, 0, 0] = .error .noFormat
      ∧ decode [0, 0] = .error .badLength := by decide
/-- The most significant byte stands first (log 15). -/
theorem test_encode_sync : encode .syncCw = [0x7C, 0xD2, 0x15, 0xD8] := by decide

/-! ## Vectors of spec/95_test_vectors.md -/

/-- VB11 and VB9. -/
theorem test_vb11 : after (exec .bch { base with d := 0x0F5138 }) (·.p) = some 0x0CB := by
  decide +kernel
theorem test_vb9 : after (exec .bch { base with d := 0x155555 }) (·.p) = some 0x38D := by
  decide +kernel
/-- VA10 (S2, and not X1, X2, X3) and VA12. -/
theorem test_va10 :
    after (exec .addrcw { base with ric := 1234567, func := 3 }) (·.cw) = some 0x4B5A1A25 := by
  decide +kernel
theorem test_va12 :
    after (exec .addrcw { base with ric := 2097151, func := 0 }) (·.cw) = some 0x7FFFE533 := by
  decide +kernel
/-- VM5 and VM4 (and not X5). -/
theorem test_vm5 : after (exec .msgcw { base with pay := 0x12345 }) (·.cw) = some 0x12345925 := by
  decide +kernel
theorem test_vm4 : after (exec .msgcw { base with pay := 0x80000 }) (·.cw) = some 0x800009BA := by
  decide +kernel
/-- VP5 (and not X6, X7, X8, X10) and VE1. -/
theorem test_vp5 :
    after (exec .packa (withText [0x48, 0x45, 0x4C, 0x4C, 0x4F])) (fun t => (t.ngrp, t.grp))
      = some (2, [(0, 0x1344C), (1, 0x99F3F)]) := by decide
theorem test_ve1 :
    after (exec .packa { base with len := 81 }) (fun t => (t.seq, t.ecode, t.einfo, t.eop))
      = some (.error, 1, 81, 4) := by decide
/-- VN4 (and not X9), digits only, so whichever the table is, and VE5. -/
theorem test_vn4 :
    after (exec .packn (withText [0x39, 0x31, 0x31])) (fun t => (t.ngrp, t.grp))
      = some (1, [(0, 0x988FF)]) := by decide
theorem test_ve5 :
    after (exec .packn (withText [0x75])) (fun t => (t.seq, t.ecode, t.einfo, t.eop))
      = some (.error, 2, 0, 5) := by decide
/-- VN6, under the published table. -/
theorem test_vn6 :
    groups (pad (streamNum NumTable.published [0x55, 0x20, 0x2D, 0x5B, 0x5D])) = [0xD3BF7] := by decide
/-- The published table is one of the 720, and each of the 720 is five distinct codes in `0xA` to `0xF`
(30_encoding.md R108). -/
theorem test_pick_published : NumTable.ofPick 517 = NumTable.published := by decide
theorem test_picks_distinct : ∀ n : Fin 720,
    (let t := NumTable.ofPick n.val
     [t.u, t.space, t.hyphen, t.close, t.opening].Nodup
       ∧ 0xA#4 ≤ t.u ∧ 0xA#4 ≤ t.space ∧ 0xA#4 ≤ t.hyphen ∧ 0xA#4 ≤ t.close ∧ 0xA#4 ≤ t.opening) := by
  decide +kernel
/-- VF1 (and not X11, X15), and a word of VF7's second batch as it stands in `BIT` (and not X12, X14). -/
theorem test_vf1 :
    batches 1 (slots 1234567 3 [0x13FFF])
      = 0x7CD215D8 :: List.replicate 14 0x7A89C197 ++ [0x4B5A1A25, 0x13FFFFB3] := by decide +kernel
theorem test_vf7 :
    after (exec .asm { base with ric := 7, func := 1, grp := [(0, 0), (1, 0xFFFFF)], ngrp := 2 })
        (fun t => (t.nbits, t.wordAt 36))
      = some (1664, 0xFFFFFFFF) := by decide +kernel
/-- VW1 (and not X16, X17, X18) by its phases, and VW4's end. -/
theorem test_vw4 :
    phases 8 1 0 0 (sampleBits 4 [1, 0]) = [0, 7, 6, 5, 4, 5, 6, 7]
      ∧ after (exec .mod (withBits 8 8 3 0 [1, 1, 0, 1])) (fun t => (t.nsamp, t.phase)) = some (4, 2) := by
  decide
/-- VE11 (and, at its first check, VE7). -/
theorem test_ve11 :
    after (exec .mod base) (fun t => (t.seq, t.ecode, t.einfo, t.eop)) = some (.error, 4, 1, 7)
      ∧ after (exec .mod (withBits 0 0 1 0 [])) (fun t => (t.seq, t.ecode, t.einfo))
        = some (.error, 4, 2) := by decide
/-- VE17: `RESET` in `ERROR`. -/
theorem test_ve17 :
    after (exec .reset ({ base with len := 2, d := 5 }.raise 4 .char 1))
        (fun t => (t.seq, t.ecode, t.einfo, t.eop, t.len, t.d))
      = some (.idle, 0, 0, 0, 0, 5) := by decide
/-- VE15 and VE16. -/
theorem test_ve15 :
    after (runMove (.wr 0 9) base) (fun t => (t.seq, t.ecode, t.einfo, t.eop))
      = some (.error, 6, 9, 9) := by decide
theorem test_ve16 :
    after (runMove (.wr 0 9) (base.raise 4 .char 1)) (fun t => (t.seq, t.ecode, t.einfo, t.eop))
      = some (.error, 2, 1, 4) := by decide
/-- VE19 and VE20. -/
theorem test_ve19 :
    after (runMove (.wr 0x19 1200) base) (fun t => t.statusWord) = some 0x020 := by decide
theorem test_ve20 :
    ({ base with cfgv := ⟨true, true, true, true, true, true⟩ } : State).statusWord = 0x3F0
      ∧ ({ base with cfgv := ⟨true, true, true, true, true, true⟩, seq := .error } : State).statusWord
        = 0x3F2 := by decide
/-- An instruction placed for the next step is the one that runs, as the first after reset. -/
theorem test_first_step :
    after (step (base.withFetchWord 4 0xC)) (fun t => (t.seq, t.ecode, t.einfo)) = some (.error, 6, 12) := by
  decide
/-- The wire words land bit 31 first (20_memory.md R66). -/
theorem test_wire_address :
    after (exec (.addressCw 154320 0 0x3C0 0) base) (fun t => (t.nbits, t.wordAt 0))
      = some (32, 0x4B5A0780) := by decide +kernel
theorem test_wire_message :
    after (exec (.messageCw 0x13FFF 0x3D9 1) { base with nbits := 32 }) (fun t => (t.nbits, t.wordAt 1))
      = some (64, 0x13FFFFB3) := by decide +kernel
theorem test_wire_idle :
    after (exec .idleCw base) (fun t => t.wordAt 0) = some 0x7A89C197 := by decide +kernel
theorem test_wire_sync :
    after (exec .syncCw base) (fun t => t.wordAt 0) = some 0x7CD215D8 := by decide +kernel
theorem test_wire_preamble :
    after (exec .preambleWord base) (fun t => t.wordAt 0) = some 0xAAAAAAAA := by decide +kernel

/-! ## Witnesses: a state and operands that meet the hypotheses of each statement, named after it -/

/-- A busy block whose turn is next, and a block in `ERROR` with a `RESET` next. -/
abbrev busyBch : State := { base with seq := .busy, curOp := some 1, prog := [.blockTurn] }
abbrev failed : State := { base.raise 4 .char 1 with prog := [.wr 0x00 0] }

theorem inv_busyBch : busyBch.Inv where
  txtCanonical := by decide
  grpCanonical := by decide
  bitCanonical := by decide
  smpCanonical := by decide
  busyHasOp := by decide
  opTakesTime := by intro c h; cases h; decide
  errorRecorded := by decide
  noErrorRecord := by decide
  phaseBound := by decide
  samplesWritten := fun i h => absurd h (Nat.not_lt_zero i)

theorem inv_failed : failed.Inv where
  txtCanonical := by decide
  grpCanonical := by decide
  bitCanonical := by decide
  smpCanonical := by decide
  busyHasOp := by decide
  opTakesTime := by intro c h; cases h
  errorRecorded := by decide
  noErrorRecord := by decide
  phaseBound := by decide
  samplesWritten := fun i h => absurd h (Nat.not_lt_zero i)

theorem witness_EveryStepKeepsInvariant :
    (busyBch.Inv ∧ ∃ t, step busyBch = .next t) ∧ failed.Inv ∧ ∃ t, step failed = .next t :=
  ⟨⟨inv_busyBch, _, rfl⟩, inv_failed, _, rfl⟩

theorem witness_IdleBlockWaits : base.prog = [] ∧ base.curOp = none := by decide

/-- The greatest operands of each wire format that is not a constant. -/
theorem witness_DecodeOfEncodeIsInstruction :
    WellFormed (.unassigned 7) ∧ WellFormed (.addressCw 0x3FFFF 2 0x3FF 1)
      ∧ WellFormed (.messageCw 0xFFFFF 0x3FF 1) ∧ WellFormed .preambleWord := by decide

theorem witness_EncodeOfDecodeIsBytes :
    decode [0x0F] = .ok (.unassigned 7)
      ∧ decode [0xFF, 0xFF, 0xFF, 0xFF] = .ok (.messageCw 0xFFFFF 0x3FF 1) := by decide

theorem witness_StepRunsDecodedInstruction :
    (({ base with prog := [.instr [0x01], .blockTurn] } : State).prog = .instr [0x01] :: [.blockTurn]
      ∧ decode [0x01] = .ok .bch) ∧ decodeTableWord 4 7 = some .mod := by decide

/-- The two sides of the bound on one byte, the two bits of a word, and a length that is neither. -/
theorem witness_UndecodableBytesAreRefused :
    (∃ e, decode [0x10] = .error e) ∧ decode [0x0F] = .ok (.unassigned 7)
      ∧ (∃ e, decode [0x80, 0x00, 0x00, 0x00] = .error e)
      ∧ decode [0x80, 0x00, 0x08, 0x00] = .ok (.messageCw 0x80000 0 0)
      ∧ ([] : List Byte).length ≠ 1 ∧ ([] : List Byte).length ≠ 4 := by
  refine ⟨⟨.codeTooWide, ?_⟩, ?_, ⟨.noFormat, ?_⟩, ?_, ?_, ?_⟩ <;> decide

/-- The least and the greatest quotient and remainder. -/
theorem witness_PolymodIsUniqueRemainder :
    0x769#31 = timesGenerator 1 ^^^ (0#10).setWidth 31
      ∧ 0x769003FF#31 = timesGenerator 0x100000 ^^^ (0x3FF#10).setWidth 31 := by decide +kernel

theorem witness_BchParityIsLinear : 0 < 21 ∧ 20 < 21 ∧ bchParity (1#21 <<< 20) = 0x3B4#10 := by
  decide +kernel

/-- VA14 to VA16 and the last address of the second run, and their neighbours. -/
theorem witness_ForgedConstantsAreSixteenAddresses :
    addressCodeword 2007664 0 = idleWord ∧ addressCodeword 2007671 0 = idleWord
      ∧ addressCodeword 2045056 2 = syncWord ∧ addressCodeword 2045063 2 = syncWord
      ∧ addressCodeword 2007663 0 ≠ idleWord ∧ addressCodeword 2007672 0 ≠ idleWord
      ∧ addressCodeword 2045055 2 ≠ syncWord ∧ addressCodeword 2045064 2 ≠ syncWord := by
  decide +kernel

/-- VA5 and VM2, and the greatest payload that an address codeword can equal (VA13, VP7). -/
theorem witness_AddressAndMessageCanBeSameWord :
    addressCodeword 1 3 = messageCodeword 1 ∧ addressCodeword 2097151 3 = messageCodeword 0x7FFFF := by
  decide +kernel

theorem witness_BchCompletes : base.seq = .idle := by decide
theorem witness_AddrcwCompletes : base.seq = .idle := by decide
theorem witness_MsgcwCompletes : base.seq = .idle := by decide

/-- A digit at each end of the range, and a symbol, whose code is the table's. -/
theorem witness_NumericCodesAreDistinct :
    numCode? numTable 0x30 = some 0 ∧ numCode? numTable 0x39 = some 9
      ∧ numCode? numTable 0x55 = some numTable.u ∧ (0x39#8 < (0x55 : Byte)) ∧ (0x20 : Byte) < 0x30#8 := by
  refine ⟨by decide, by decide, rfl, by decide, by decide⟩

/-- The longest texts, with every kind of character of the alphabet. -/
abbrev longAlpha : State := withText (0x20 :: 0x7E :: List.replicate 78 0x41)
abbrev longNum : State :=
  withText ([0x30, 0x39, 0x20, 0x55, 0x2D, 0x5B, 0x5D] ++ List.replicate 73 0x31)

theorem witness_PackaCompletes :
    longAlpha.seq = .idle ∧ longAlpha.len.toNat ≤ Config.maxChars ∧ longAlpha.len.toNat = 80
      ∧ ∀ i, i < longAlpha.len.toNat → 0x20#8 ≤ longAlpha.txtAt i ∧ longAlpha.txtAt i ≤ 0x7E#8 := by
  decide +kernel

theorem witness_PacknCompletes :
    longNum.seq = .idle ∧ longNum.len.toNat ≤ Config.maxChars ∧ longNum.len.toNat = 80
      ∧ ∀ i, i < longNum.len.toNat → (0x30#8 ≤ longNum.txtAt i ∧ longNum.txtAt i ≤ 0x39#8)
        ∨ longNum.txtAt i = 0x20#8 ∨ longNum.txtAt i = 0x55#8 ∨ longNum.txtAt i = 0x2D#8
        ∨ longNum.txtAt i = 0x5B#8 ∨ longNum.txtAt i = 0x5D#8 := by
  decide +kernel

theorem witness_UnpackRecoversText :
    ∀ c ∈ [0x20#8, 0x7E#8], 0x20#8 ≤ c ∧ c ≤ 0x7E#8 := by decide

theorem witness_PackRefusesTooLongText :
    ({ base with len := 81 } : State).seq = .idle
      ∧ Config.maxChars < ({ base with len := 81 } : State).len.toNat := by decide

/-- The last of 80 characters, one past each end of the alphabet, and a lower-case `u`. -/
abbrev badLast (c : Byte) : State := withText (List.replicate 79 0x31 ++ [c])

theorem witness_PackReportsFirstBadCharacter :
    ∀ c ∈ [0x1F#8, 0x7F#8, 0x75#8], (badLast c).seq = .idle ∧ (badLast c).len.toNat ≤ Config.maxChars
      ∧ 79 < (badLast c).len.toNat
      ∧ (c ≠ 0x75#8 → ¬ (0x20#8 ≤ (badLast c).txtAt 79 ∧ (badLast c).txtAt 79 ≤ 0x7E#8))
      ∧ (∀ j, j < 79 → 0x20#8 ≤ (badLast c).txtAt j ∧ (badLast c).txtAt j ≤ 0x7E#8)
      ∧ isNumeric ((badLast c).txtAt 79) = false
      ∧ ∀ j, j < 79 → isNumeric ((badLast c).txtAt j) = true := by
  decide +kernel

/-- The least and the greatest number of groups. -/
theorem witness_AsmCompletes :
    (base.seq = .idle ∧ base.ngrp.toNat ≤ Config.maxGrp)
      ∧ ({ base with ngrp := 28 } : State).seq = .idle
      ∧ ({ base with ngrp := 28 } : State).ngrp.toNat ≤ Config.maxGrp := by decide

theorem witness_AsmRefusesTooManyGroups :
    ({ base with ngrp := 29 } : State).seq = .idle
      ∧ Config.maxGrp < ({ base with ngrp := 29 } : State).ngrp.toNat := by decide

theorem witness_CountsLeftByOperationsFit :
    base.seq = .idle ∧ (∃ t, exec .packa base = .next t ∧ t.seq = .idle)
      ∧ (∃ t, exec .packn base = .next t ∧ t.seq = .idle)
      ∧ ∃ t, exec .asm base = .next t ∧ t.seq = .idle :=
  ⟨rfl, next_of_after (v := SeqState.idle) (by decide), next_of_after (v := SeqState.idle) (by decide),
    next_of_after (v := SeqState.idle) (by decide)⟩

theorem validConfig_of (s : State)
    (h : (s.cfgv.baud = true ∧ s.cfgv.dev = true ∧ s.cfgv.invert = true ∧ s.cfgv.fs = true)
      ∧ 0 < s.cfgBaud.toNat ∧ 0 < s.cfgFs.toNat ∧ s.cfgFs.toNat % s.cfgBaud.toNat = 0) : s.ValidConfig :=
  ⟨h.1, h.2.1, h.2.2.1, h.2.2.2⟩

theorem valid_vw1 : (withBits 8 2 1 0 [1, 0]).ValidConfig := validConfig_of _ (by decide)

/-- What the statements about `MOD` ask of a state. -/
abbrev Modulates (s : State) : Prop :=
  s.seq = .idle ∧ s.ValidConfig ∧ s.nbits.toNat ≤ Config.maxBits
    ∧ s.nbits.toNat * (s.cfgFs.toNat / s.cfgBaud.toNat) ≤ Config.maxSamp

theorem modulates_vw1 : Modulates (withBits 8 2 1 0 [1, 0]) := ⟨rfl, valid_vw1, by decide, by decide⟩

/-- VW1, the greatest bit count, and the greatest sample count. -/
theorem witness_ModCompletes :
    Modulates (withBits 8 2 1 0 [1, 0]) ∧ Modulates { withBits 8 2 1 0 [1, 0] with nbits := 2208 }
      ∧ Modulates (withBits 0xFFFFFFFF 1 1 0 [1]) :=
  ⟨modulates_vw1, ⟨rfl, validConfig_of _ (by decide), by decide, by decide⟩,
    rfl, validConfig_of _ (by decide), by decide, by decide⟩

/-- VW1's phases and VW2's, by the recurrence of the statements (and not X16, X17, X18). -/
theorem test_phaseAt_vw1 :
    (List.range 8).map (phaseAt (withBits 8 2 1 0 [1, 0])) = [0, 7, 6, 5, 4, 5, 6, 7]
      ∧ (List.range 8).map (phaseAt (withBits 8 2 1 1 [1, 0])) = [0, 1, 2, 3, 4, 3, 2, 1] := by decide

/-- The first and the last sample of the second bit of VW1. -/
theorem witness_PhaseHasClosedForm :
    Modulates (withBits 8 2 1 0 [1, 0]) ∧ 1 < (withBits 8 2 1 0 [1, 0]).nbits.toNat
      ∧ 0 < samplesPerBit (withBits 8 2 1 0 [1, 0]) ∧ 3 < samplesPerBit (withBits 8 2 1 0 [1, 0])
      ∧ [phaseOf (withBits 8 2 1 0 [1, 0]) 1 0, phaseOf (withBits 8 2 1 0 [1, 0]) 1 3] = [4, 7] :=
  ⟨modulates_vw1, by decide, by decide, by decide, by decide⟩

theorem witness_OtherPolarityNegatesPhases :
    Modulates (withBits 8 2 1 0 [1, 0]) ∧ Modulates (withBits 8 2 1 1 [1, 0]) :=
  ⟨modulates_vw1, rfl, validConfig_of _ (by decide), by decide, by decide⟩

/-- The 576 bits of a preamble. -/
abbrev alternating : List Bit := (List.range 576).map fun j => if j % 2 = 0 then 1#1 else 0#1

theorem alternating_start (bs : List Bit) (j : Nat) (hj : j < 576) :
    (withBits 8 2 1 0 (alternating ++ bs)).bitAt j = if j % 2 = 0 then 1#1 else 0#1 := by
  simp [State.bitAt, Mem.read, Mem.get?_cells, List.getElem?_append, hj]

/-- The preamble alone, and the preamble with a bit after it. -/
theorem witness_PreambleReturnsPhaseToZero :
    (Modulates (withBits 8 2 1 0 (alternating ++ []))
        ∧ (withBits 8 2 1 0 (alternating ++ [])).nbits.toNat = 576
        ∧ ∀ j, j < 576 →
          (withBits 8 2 1 0 (alternating ++ [])).bitAt j = if j % 2 = 0 then 1#1 else 0#1)
      ∧ Modulates (withBits 8 2 1 0 (alternating ++ [1]))
        ∧ 576 < (withBits 8 2 1 0 (alternating ++ [1])).nbits.toNat
        ∧ ∀ j, j < 576 →
          (withBits 8 2 1 0 (alternating ++ [1])).bitAt j = if j % 2 = 0 then 1#1 else 0#1 :=
  ⟨⟨⟨rfl, validConfig_of _ (by decide), by decide +kernel, by decide +kernel⟩, by decide +kernel,
      alternating_start []⟩,
    ⟨rfl, validConfig_of _ (by decide), by decide +kernel, by decide +kernel⟩, by decide +kernel,
    alternating_start [1]⟩

/-- VW1, and VW1 with a register, a count and a `CFGV` bit that `MOD` does not read changed. -/
theorem witness_ModDependsOnItsInputsAlone :
    let s := withBits 8 2 1 0 [1, 0]
    let s' := { s with d := 5, ngrp := 9, phase := 3, cfgv := ⟨true, true, true, true, true, false⟩ }
    s.seq = .idle ∧ s'.seq = .idle ∧ s.ValidConfig ∧ s'.ValidConfig ∧ s'.nbits = s.nbits
      ∧ (∀ j, j < s.nbits.toNat → s'.bitAt j = s.bitAt j)
      ∧ s'.cfgBaud = s.cfgBaud ∧ s'.cfgDev = s.cfgDev ∧ s'.cfgInvert = s.cfgInvert ∧ s'.cfgFs = s.cfgFs
      ∧ (∃ t, exec .mod s = .next t ∧ t.seq = .idle) ∧ ∃ t, exec .mod s' = .next t ∧ t.seq = .idle :=
  ⟨rfl, rfl, valid_vw1, validConfig_of _ (by decide), rfl, fun _ _ => rfl, rfl, rfl, rfl, rfl,
    next_of_after (v := SeqState.idle) (by decide), next_of_after (v := SeqState.idle) (by decide)⟩

/-- VE7 to VE10, one state for each check. -/
theorem witness_ModReportsFirstFailedCheck :
    (base.cfgv.baud && base.cfgv.dev && base.cfgv.invert && base.cfgv.fs) = false
      ∧ (withBits 8 0 1 0 []).cfgBaud = 0
      ∧ ((withBits 0 2 1 0 []).cfgBaud ≠ 0 ∧ (withBits 0 2 1 0 []).cfgFs = 0)
      ∧ (withBits 8 3 1 0 []).cfgBaud ≠ 0 ∧ (withBits 8 3 1 0 []).cfgFs ≠ 0
      ∧ (withBits 8 3 1 0 []).cfgFs.toNat % (withBits 8 3 1 0 []).cfgBaud.toNat ≠ 0
      ∧ ∀ s ∈ [withBits 8 0 1 0 [], withBits 0 2 1 0 [], withBits 8 3 1 0 []],
        s.seq = .idle ∧ (s.cfgv.baud && s.cfgv.dev && s.cfgv.invert && s.cfgv.fs) = true := by
  refine ⟨by decide, by decide, by decide, by decide, by decide, by decide, ?_⟩
  intro s hs
  simp only [List.mem_cons, List.not_mem_nil, or_false] at hs
  rcases hs with rfl | rfl | rfl <;> exact ⟨rfl, rfl⟩

/-- VE13, and the least sample count above the capacity that two bits can have. -/
theorem witness_ModRefusesCountsAboveCapacity :
    (({ withBits 8 2 1 0 [] with nbits := 2209 } : State).ValidConfig
      ∧ Config.maxBits < ({ withBits 8 2 1 0 [] with nbits := 2209 } : State).nbits.toNat)
      ∧ (withBits 0x80000000 1 1 0 [1, 0]).ValidConfig
      ∧ (withBits 0x80000000 1 1 0 [1, 0]).nbits.toNat ≤ Config.maxBits
      ∧ Config.maxSamp
        < (withBits 0x80000000 1 1 0 [1, 0]).nbits.toNat * (withBits 0x80000000 1 1 0 [1, 0]).spb :=
  ⟨⟨validConfig_of _ (by decide), by decide⟩, validConfig_of _ (by decide), by decide, by decide⟩

theorem witness_ResetOperationCompletes : base.seq ≠ .busy ∧ failed.seq ≠ .busy := by decide
theorem witness_UnassignedCodeRaisesOpError : base.seq = .idle := by decide

theorem witness_ErrorIgnoresCommands :
    failed.seq = .error ∧ (Instr.unassigned 7).code?.isSome = true ∧ Instr.unassigned 7 ≠ .reset
      ∧ (1#4 : Code) ≠ 0#4 ∧ (15#4 : Code) ≠ 0#4 := by decide

theorem witness_ErrorsArePrecise :
    base.seq = .idle ∧ ∃ t, exec (.unassigned 1) base = .next t ∧ t.seq = .error :=
  ⟨rfl, next_of_after (v := SeqState.error) (by decide)⟩

/-- A write of `CMD` that leaves the error, and one that does not. -/
theorem witness_ErrorStateIsSticky :
    failed.Inv ∧ failed.seq = .error ∧ (∃ t, step failed = .next t ∧ t.seq = .idle)
      ∧ ∃ t, step { failed with prog := [.wr 0x00 1] } = .next t ∧ t.seq = .error :=
  ⟨inv_failed, rfl, next_of_after (v := SeqState.idle) (by decide),
    next_of_after (v := SeqState.error) (by decide)⟩

/-- Only a state that held the code before. -/
theorem witness_EncodeErrorIsNeverRaised :
    ∃ t, step { base with ecode := 3 } = .next t ∧ t.ecode = 3#4 := next_of_after (by decide)

theorem witness_NoInstructionWritesConfiguration : ∃ t, exec .bch base = .next t := ⟨_, rfl⟩

theorem witness_InstructionsWriteOnlyTheirResults :
    (∃ t, exec .mod (withBits 8 2 1 0 [1, 0]) = .next t ∧ t.seq = .idle)
      ∧ (∃ t, exec .asm vf1 = .next t ∧ t.seq = .idle) ∧ Instr.asm.code?.isSome = true
      ∧ ∃ t, exec .idleCw base = .next t ∧ t.seq = .idle :=
  ⟨next_of_after (v := SeqState.idle) (by decide), next_of_after (v := SeqState.idle) (by decide), by decide,
    next_of_after (v := SeqState.idle) (by decide)⟩

/-- The last place a word fits, in `IDLE` and in `ERROR`. -/
theorem witness_WireWordsArePlaced :
    ∀ s ∈ [{ base with nbits := 2176 }, { failed with nbits := 2176 }],
      s.seq ≠ .busy ∧ s.nbits.toNat + 32 ≤ Config.maxBits := by
  intro s hs
  simp only [List.mem_cons, List.not_mem_nil, or_false] at hs
  rcases hs with rfl | rfl <;> exact ⟨by decide, by decide⟩

/-- The first place where a word does not fit. -/
theorem witness_WireWordPastBitMemoryFaults :
    Instr.idleCw.code? = none ∧ ({ base with nbits := 2177 } : State).seq ≠ .busy
      ∧ Config.maxBits < ({ base with nbits := 2177 } : State).nbits.toNat + 32 := by decide

theorem witness_WireWordIsHostWrites :
    (Instr.messageCw 0 0 0).code? = none ∧ (withBits 8 2 1 0 [1, 0]).seq ≠ .busy
      ∧ (withBits 8 2 1 0 [1, 0]).nbits.toNat + 32 ≤ Config.maxBits
      ∧ Mem.wf Config.maxBits (withBits 8 2 1 0 [1, 0]).bit = true := by decide

theorem witness_AsmPlacesItsWordsInOrder : vf1.seq = .idle ∧ vf1.ngrp.toNat ≤ Config.maxGrp := by decide

theorem witness_BusyBlockRefusesHostAccess : busyBch.seq = .busy ∧ (0x00 : Nat) ≠ 0x01 := by decide

/-- The codes at the ends of each clause's range. -/
theorem witness_CommandWriteThenTurnIsOperation :
    base.seq = .idle ∧ base.curOp = none ∧ (1#4 : Code) ≠ 0#4 ∧ (7#4 : Code) < 8#4
      ∧ 8#4 ≤ (8#4 : Code) ∧ 8#4 ≤ (15#4 : Code) := by decide

theorem witness_HostReadChangesNothing :
    base.seq ≠ .busy ∧ (0x00, 0) ∈ registerValues base ∧ (0x1D, base.cfgPower) ∈ registerValues base
      ∧ regOf 0x01 = some .status ∧ regOf 0x1D = some .cfgPower ∧ 79 < Config.maxChars
      ∧ 27 < Config.maxGrp ∧ 2207 < Config.maxBits ∧ 0xFFFFFFFE < Config.maxSamp := by
  refine ⟨by decide, by simp [registerValues], by simp [registerValues], by decide, by decide, by decide,
    by decide, by decide, by decide⟩

/-- The greatest value of a register of each kind. -/
theorem witness_HostWriteIsReadBack :
    base.seq ≠ .busy ∧ (regOf 0x0A = some .ric ∧ Reg.readOnly .ric = false ∧ Reg.ric ≠ .cmd
        ∧ 0x1FFFFF < 2 ^ Reg.ric.width)
      ∧ (regOf 0x10 = some .len ∧ Reg.readOnly .len = false ∧ 0xFFFFFFFF < 2 ^ Reg.len.width)
      ∧ regOf 0x1B = some .cfgInvert ∧ Reg.readOnly .cfgInvert = false ∧ 1 < 2 ^ Reg.cfgInvert.width := by
  decide

theorem witness_ConfigurationWriteSetsItsBit :
    base.seq ≠ .busy ∧ 0xFFFFFFFF < 2 ^ 32 ∧ 1 < 2 ∧ 0x13 < 0x18
      ∧ (∃ t, runMove (.wr 0x13 5) base = .next t) ∧ ∃ t, runMove (.wr 0x12 5) base = .next t :=
  ⟨by decide, by decide, by decide, by decide, ⟨_, rfl⟩, ⟨_, rfl⟩⟩

theorem witness_ReadOnlyWriteIsIgnored :
    base.seq ≠ .busy ∧ regOf 0x01 = some .status ∧ Reg.readOnly .status = true
      ∧ regOf 0x13 = some .nsamp ∧ Reg.readOnly .nsamp = true ∧ 0xFFFFFFFE < Config.maxSamp := by decide

theorem witness_HostElementWriteIsReadBack :
    base.seq ≠ .busy ∧ (79 < Config.maxChars ∧ 0xFF < 2 ^ 8) ∧ (27 < Config.maxGrp ∧ 0xFFFFF < 2 ^ 20)
      ∧ 2207 < Config.maxBits ∧ 1 < 2 := by decide

/-- The first and the last number of each gap, the first space and element that does not exist, and the
least value too wide. -/
theorem witness_MissingPlacesAndWideValuesStop :
    base.seq ≠ .busy
      ∧ (∀ n ∈ [5, 7, 0x0F, 0x14, 0x17, 0x1E],
          ((4 < n ∧ n < 8) ∨ n = 0x0F ∨ (0x13 < n ∧ n < 0x18) ∨ 0x1D < n) ∧ regOf n = none)
      ∧ (3 < 4 ∧ spaceOf 4 = none)
      ∧ (spaceOf 0 = some .txt ∧ Space.txt.capacity ≤ 80) ∧ (spaceOf 1 = some .grp ∧ Space.grp.capacity ≤ 28)
      ∧ (spaceOf 2 = some .bit ∧ Space.bit.capacity ≤ 2208)
      ∧ (spaceOf 3 = some .smp ∧ Space.smp.capacity ≤ 0xFFFFFFFF)
      ∧ (regOf 0x0B = some .func ∧ Reg.readOnly .func = false ∧ 2 ^ Reg.func.width ≤ 4)
      ∧ (regOf 0x00 = some .cmd ∧ Reg.readOnly .cmd = false ∧ 2 ^ Reg.cmd.width ≤ 16)
      ∧ (79 < Config.maxChars ∧ 2 ^ 8 ≤ 256) ∧ (27 < Config.maxGrp ∧ 2 ^ 20 ≤ 0x100000)
      ∧ 2207 < Config.maxBits ∧ 2 ≤ 2 := by decide

theorem witness_TextMoveFillsTextMemory :
    base.seq ≠ .busy ∧ (List.replicate 80 (0x41 : Byte)).length ≤ Config.maxChars := by decide

/-- A text of either type, at the rates of P3. -/
abbrev encodable (s : State) (ty : BitVec 1) : State :=
  { s with
    cfgFs := 48000, cfgBaud := 1200, cfgDev := 4500, cfgInvert := 0
    cfgv := ⟨false, true, true, true, true, false⟩, mtype := ty, ric := 1234567, func := 3 }

/-- Both types of message, the longest text of each. -/
theorem witness_EncodeBuildsWholeTransmission :
    (let s := encodable longAlpha 0
     s.seq = .idle ∧ s.len.toNat ≤ Config.maxChars ∧ s.ValidConfig
      ∧ (s.mtype = 0#1 → 28 = (7 * s.len.toNat + 19) / 20
        ∧ ∀ i, i < s.len.toNat → isAlpha (s.txtAt i) = true)
      ∧ s.mtype ≠ 1#1 ∧ (576 + 544 * batchCount s.ric 28) * samplesPerBit s ≤ Config.maxSamp)
    ∧ let s := encodable longNum 1
      s.seq = .idle ∧ s.len.toNat ≤ Config.maxChars ∧ s.ValidConfig
      ∧ s.mtype ≠ 0#1
      ∧ (s.mtype = 1#1 → 16 = (4 * s.len.toNat + 19) / 20
        ∧ ∀ i, i < s.len.toNat → isNumeric (s.txtAt i) = true)
      ∧ (576 + 544 * batchCount s.ric 16) * samplesPerBit s ≤ Config.maxSamp := by
  refine ⟨⟨rfl, by decide, validConfig_of _ (by decide), ?_, by decide, by decide⟩,
    rfl, by decide, validConfig_of _ (by decide), by decide, ?_, by decide⟩ <;> decide +kernel

/-- A text that fails at once, and a legal one that fails at `MOD` for want of a configuration. -/
theorem witness_EncodeStopsAtFirstError :
    (∃ t, exec (if ({ withText [0x1F] with mtype := 0 } : State).mtype = 0#1 then .packa else .packn)
        { withText [0x1F] with mtype := 0 } = .next t ∧ t.seq = .error)
      ∧ ∃ u, exec (if ({ base with mtype := 1 } : State).mtype = 0#1 then .packa else .packn)
          { base with mtype := 1 } = .next u
        ∧ u.seq = .idle ∧ ∃ v, exec .asm u = .next v ∧ v.seq = .idle
        ∧ ∃ t, exec .mod v = .next t ∧ t.seq = .error :=
  ⟨next_of_after (v := SeqState.error) (by decide), _, rfl, rfl, _, rfl, rfl, _, rfl, rfl⟩

end Sys2Proof.Tests
end

section
/-! PROOFS. Division by the generator over GF(2) (00_scope.md R14): what is divided off is a multiple of
the generator, what is left has degree below 10, and multiples leave nothing. -/

namespace Sys2Proof.Machine

/-! ### One round -/

theorem clearBit_of_getLsbD_false {r : BitVec 31} {i : Nat} (h : r.getLsbD i = false) :
    clearBit r i = r := by
  rw [clearBit, h, if_neg Bool.false_ne_true]

theorem clearBit_of_getLsbD_true {r : BitVec 31} {k : Nat} (h : r.getLsbD (k + 10) = true) :
    clearBit r (k + 10) = r ^^^ generator <<< k := by
  rw [clearBit, if_pos h, Nat.add_sub_cancel]

/-! ### Multiples of the generator -/

theorem timesGenLow_xor (p q : BitVec 21) (k : Nat) :
    timesGenLow (p ^^^ q) k = timesGenLow p k ^^^ timesGenLow q k := by
  induction k with
  | zero => simp [timesGenLow]
  | succ k ih =>
    have hterm : (if (p ^^^ q).getLsbD k then generator <<< k else 0#31)
        = (if p.getLsbD k then generator <<< k else 0#31)
          ^^^ (if q.getLsbD k then generator <<< k else 0#31) := by
      rw [BitVec.getLsbD_xor]
      cases p.getLsbD k <;> cases q.getLsbD k <;> simp
    simp only [timesGenLow, ih, hterm]
    ac_rfl

/-- Carry-less multiplication distributes over the exclusive OR. -/
theorem timesGenerator_xor (p q : BitVec 21) :
    timesGenerator (p ^^^ q) = timesGenerator p ^^^ timesGenerator q :=
  timesGenLow_xor p q 21

theorem timesGenerator_zero : timesGenerator 0#21 = 0#31 := by decide

/-- The product with `x ^ k` is the shifted generator. -/
theorem timesGenerator_twoPow :
    ∀ k, k < 21 → timesGenerator (BitVec.twoPow 21 k) = generator <<< k := by decide

/-- One round takes off a multiple of the generator. -/
theorem exists_timesGenerator_xor_clearBit {k : Nat} (h : k < 21) (r : BitVec 31) :
    ∃ q, r = timesGenerator q ^^^ clearBit r (k + 10) := by
  cases hb : r.getLsbD (k + 10) with
  | false =>
    exact ⟨0#21, by rw [clearBit_of_getLsbD_false hb, timesGenerator_zero, BitVec.zero_xor]⟩
  | true =>
    refine ⟨BitVec.twoPow 21 k, ?_⟩
    rw [timesGenerator_twoPow k h, clearBit_of_getLsbD_true hb, BitVec.xor_comm r, ← BitVec.xor_assoc,
      BitVec.xor_self, BitVec.zero_xor]

/-- The rounds together take off a multiple of the generator. -/
theorem exists_timesGenerator_xor_clearBits {k : Nat} (h : k ≤ 21) (r : BitVec 31) :
    ∃ q, r = timesGenerator q ^^^ clearBits k r := by
  induction k generalizing r with
  | zero => exact ⟨0, by simp [clearBits, timesGenerator_zero]⟩
  | succ k ih =>
    obtain ⟨p, hp⟩ := exists_timesGenerator_xor_clearBit (k := k) (by omega) r
    obtain ⟨q, hq⟩ := ih (by omega) (clearBit r (k + 10))
    exact ⟨p ^^^ q, by rw [timesGenerator_xor, BitVec.xor_assoc, clearBits, ← hq, ← hp]⟩

/-! ### The degree of the remainder -/

/-- `r`, as a polynomial, has degree below `n`. -/
def DegreeLt (n : Nat) (r : BitVec 31) : Prop := ∀ i, n ≤ i → r.getLsbD i = false

theorem degreeLt_setWidth (r : BitVec 10) : DegreeLt 10 (r.setWidth 31) := fun i hi => by
  simp [BitVec.getLsbD_setWidth, BitVec.getLsbD_of_ge r i hi]

theorem degreeLt_generator : DegreeLt 11 generator := fun i hi => by
  rw [generator, BitVec.getLsbD_ofNat, Nat.testBit_lt_two_pow, Bool.and_false]
  exact lt_of_lt_of_le (by decide : 0x769 < 2 ^ 11) (Nat.pow_le_pow_right (by decide) hi)

theorem degreeLt_generator_shiftLeft (k : Nat) : DegreeLt (k + 1 + 10) (generator <<< k) :=
  fun i hi => by
    rw [BitVec.getLsbD_shiftLeft, degreeLt_generator (i - k) (by omega), Bool.and_false]

/-- The generator has degree 10 exactly, so shifted by `k` it has degree `k + 10`. -/
theorem getLsbD_generator_shiftLeft_top {k : Nat} (h : k + 10 < 31) :
    (generator <<< k).getLsbD (k + 10) = true := by
  have hten : generator.getLsbD 10 = true := by decide
  rw [BitVec.getLsbD_shiftLeft, Nat.add_sub_cancel_left, hten]
  simp [h]

/-- The round for bit `k + 10` lowers the degree to below it, because the generator's degree is 10. -/
theorem degreeLt_clearBit {k : Nat} {r : BitVec 31} (h : DegreeLt (k + 1 + 10) r) :
    DegreeLt (k + 10) (clearBit r (k + 10)) := by
  intro i hi
  cases hb : r.getLsbD (k + 10) with
  | false =>
    rw [clearBit_of_getLsbD_false hb]
    obtain rfl | hlt := hi.eq_or_lt
    · exact hb
    · exact h i (by omega)
  | true =>
    rw [clearBit_of_getLsbD_true hb, BitVec.getLsbD_xor]
    obtain rfl | hlt := hi.eq_or_lt
    · rw [hb, getLsbD_generator_shiftLeft_top (BitVec.lt_of_getLsbD hb), Bool.xor_self]
    · rw [h i (by omega), degreeLt_generator_shiftLeft k i (by omega), Bool.xor_false]

/-- The rounds leave a remainder of degree below 10. -/
theorem degreeLt_clearBits {k : Nat} {r : BitVec 31} (h : DegreeLt (k + 10) r) :
    DegreeLt 10 (clearBits k r) := by
  induction k generalizing r with
  | zero => simpa [clearBits] using h
  | succ k ih => exact ih (degreeLt_clearBit h)

/-- The rounds above a value's degree do nothing. -/
theorem clearBits_of_degreeLt {k m : Nat} {r : BitVec 31} (h : DegreeLt (k + 10) r) (hkm : k ≤ m) :
    clearBits m r = clearBits k r := by
  induction m, hkm using Nat.le_induction with
  | base => rfl
  | succ m hm ih => rw [clearBits, clearBit_of_getLsbD_false (h (m + 10) (by omega)), ih]

/-- `polymod` keeps the ten low bits of what the rounds leave, and there are no others. -/
theorem setWidth_polymod (a : BitVec 31) : (polymod a).setWidth 31 = clearBits 21 a := by
  have hdeg : DegreeLt 10 (clearBits 21 a) :=
    degreeLt_clearBits fun i hi => BitVec.getLsbD_of_ge a i hi
  refine BitVec.eq_of_getLsbD_eq fun i hi => ?_
  obtain hlt | hge := lt_or_ge i 10
  · simp [polymod, hi, hlt]
  · rw [hdeg i hge, degreeLt_setWidth _ i hge]

/-! ### What `polymod` leaves of each summand -/

theorem polymod_setWidth (r : BitVec 10) : polymod (r.setWidth 31) = r := by
  rw [polymod, clearBits_of_degreeLt (k := 0) (degreeLt_setWidth r) (Nat.zero_le 21), clearBits]
  ext i hi
  simp [show i < 31 by omega, BitVec.getLsbD_eq_getElem hi]

theorem polymod_zero : polymod 0#31 = 0#10 := polymod_setWidth 0

/-- The round for bit `k + 10` cancels the generator shifted by `k`. -/
theorem clearBit_generator_shiftLeft {k : Nat} (h : k < 21) :
    clearBit (generator <<< k) (k + 10) = 0#31 := by
  rw [clearBit_of_getLsbD_true (getLsbD_generator_shiftLeft_top (by omega)), BitVec.xor_self]

theorem polymod_generator_shiftLeft {k : Nat} (h : k < 21) : polymod (generator <<< k) = 0#10 := by
  have hzero : DegreeLt (0 + 10) 0#31 := degreeLt_setWidth 0
  have hrounds : clearBits 21 (generator <<< k) = 0#31 := by
    rw [clearBits_of_degreeLt (degreeLt_generator_shiftLeft k) h, clearBits,
      clearBit_generator_shiftLeft h, clearBits_of_degreeLt hzero (Nat.zero_le k), clearBits]
  rw [polymod, hrounds, BitVec.extractLsb'_zero]

theorem polymod_timesGenLow (q : BitVec 21) {k : Nat} (h : k ≤ 21) :
    polymod (timesGenLow q k) = 0#10 := by
  induction k with
  | zero => exact polymod_zero
  | succ k ih =>
    rw [timesGenLow, polymod_xor, ih (by omega), BitVec.zero_xor]
    split
    · exact polymod_generator_shiftLeft h
    · exact polymod_zero

/-- A multiple of the generator leaves no remainder. -/
theorem polymod_timesGenerator (q : BitVec 21) : polymod (timesGenerator q) = 0#10 :=
  polymod_timesGenLow q le_rfl

/-! ### The obligation -/

/-- Settles O10: the rounds divide off a multiple of the generator and leave `polymod`; conversely, by
linearity, `polymod` of `q * GEN ^ r` is `0 ^ r`. -/
theorem polymodIsUniqueRemainder : Obligations.PolymodIsUniqueRemainder := by
  unfold Obligations.PolymodIsUniqueRemainder
  intro a
  constructor
  · rw [setWidth_polymod]
    exact exists_timesGenerator_xor_clearBits le_rfl a
  · rintro q r rfl
    rw [polymod_xor, polymod_timesGenerator, polymod_setWidth, BitVec.zero_xor]

end Sys2Proof.Machine
end

section
/-! PROOFS. What an instruction does, said once (`Executes`, `exec_next`), and the frame of every instruction. -/

namespace Sys2Proof.Machine

/-! ### What an instruction that answers a next state did -/

/-- `Executes s i t`: `t` is a next state `exec i s` can answer, one constructor for each way an instruction
ends. The guards are the checks that instruction has passed. -/
inductive Executes (s : State) : Instr → State → Prop
  /-- An operation other than `RESET`, given to a block in `ERROR` (60_exceptions.md R248). -/
  | ignored {i : Instr} (opCode : i.code?.isSome = true) (seqError : s.seq = .error) : Executes s i s
  /-- An operation ended by an error, which is never `E_ENCODE` (60_exceptions.md R240, R246). -/
  | raised {i : Instr} {c : Code} {e : ErrCode} (n : Nat) (opCode : i.code? = some c)
      (seqIdle : s.seq = .idle) (notEncode : e ≠ .encode) : Executes s i (s.raise c e n)
  | reset (notBusy : s.seq ≠ .busy) : Executes s .reset s.softReset
  | bch (seqIdle : s.seq = .idle) : Executes s .bch { s with p := bchParity s.d }
  | addrcw (seqIdle : s.seq = .idle) :
      Executes s .addrcw { s with cw := addressCodeword s.ric s.func }
  | msgcw (seqIdle : s.seq = .idle) : Executes s .msgcw { s with cw := messageCodeword s.pay }
  | packa (seqIdle : s.seq = .idle) (lenFits : s.len.toNat ≤ Config.maxChars)
      (allAlpha : s.text.findIdx? (fun c => !isAlpha c) = none) :
      Executes s .packa { s with
        grp := Mem.writeBlock s.grp 0 (groups (pad (streamAlpha s.text)))
        ngrp := BitVec.ofNat 32 (groups (pad (streamAlpha s.text))).length }
  | packn (seqIdle : s.seq = .idle) (lenFits : s.len.toNat ≤ Config.maxChars)
      (allNumeric : s.text.findIdx? (fun c => !isNumeric c) = none) :
      Executes s .packn { s with
        grp := Mem.writeBlock s.grp 0 (groups (pad (streamNum numTable s.text)))
        ngrp := BitVec.ofNat 32 (groups (pad (streamNum numTable s.text))).length }
  | asm (seqIdle : s.seq = .idle) (groupsFit : s.ngrp.toNat ≤ Config.maxGrp) :
      Executes s .asm { s with
        bit := Mem.writeBlock s.bit 0 (transmission s.ric s.func s.groupList)
        nbits := BitVec.ofNat 32 (transmission s.ric s.func s.groupList).length }
  | mod (seqIdle : s.seq = .idle) (configOk : configCheck s = none)
      (bitsFit : s.nbits.toNat ≤ Config.maxBits)
      (samplesFit : s.nbits.toNat * s.spb ≤ Config.maxSamp) :
      Executes s .mod { s with
        smp := Mem.writeBlock s.smp 0
          ((phases s.cfgFs.toNat s.cfgDev.toNat s.cfgInvert 0 (sampleBits s.spb s.bitList)).map
            fun ph => Config.iq ph s.cfgFs.toNat)
        nsamp := BitVec.ofNat 32 (s.nbits.toNat * s.spb)
        phase := lastPhase s.cfgFs.toNat s.cfgDev.toNat s.cfgInvert 0 (sampleBits s.spb s.bitList) }
  /-- A wire word placed into `BIT` (log 13). -/
  | placed {i : Instr} (wireWord : i.code? = none) (notBusy : s.seq ≠ .busy)
      (wordFits : s.nbits.toNat + 32 ≤ Config.maxBits) :
      Executes s i { s with
        bit := Mem.writeBlock s.bit s.nbits.toNat (bitsMsb 32 i.word)
        nbits := s.nbits + 32 }

variable {s t : State} {i : Instr}

/-- An operation started by `runOp` did what its body does when it ends, whatever the way. -/
theorem executes_of_runOp {c : Code} {body : State → OpResult} (hc : i.code? = some c)
    (hdone : ∀ u, s.seq = .idle → body s = .done u → Executes s i u)
    (herr : ∀ e n, body s = .err e n → e ≠ .encode) (h : runOp c body s = .next t) :
    Executes s i t := by
  obtain ⟨hs, rfl⟩ | ⟨hs, hd⟩ | ⟨hs, e, n, he, rfl⟩ := runOp_next h
  · exact .ignored (by rw [hc]; rfl) hs
  · exact hdone t hs hd
  · exact .raised n hc hs (herr e n he)

/-- The same for an operation that raises no error. -/
theorem executes_of_runOp_done {c : Code} {f : State → State} (hc : i.code? = some c)
    (hf : s.seq = .idle → Executes s i (f s)) (h : runOp c (fun s => .done (f s)) s = .next t) :
    Executes s i t :=
  executes_of_runOp hc (fun _ hs hd => by cases hd; exact hf hs) (fun _ _ he => by cases he) h

theorem executes_of_placeWord (hc : i.code? = none) (h : placeWord i.word s = .next t) :
    Executes s i t := by
  obtain ⟨hb, hfit, rfl⟩ := placeWord_next h
  exact .placed hc hb hfit

/-- Neither pack operation raises `E_ENCODE` (60_exceptions.md R240). -/
theorem pack_err_ne_encode {legal : Byte → Bool} {stream : List Byte → List Bit} (e : ErrCode) (n : Nat)
    (h : pack legal stream s = .err e n) : e ≠ .encode := by
  obtain ⟨-, rfl, -⟩ | ⟨-, -, rfl⟩ := pack_err h <;> decide

theorem assemble_err_ne_encode (e : ErrCode) (n : Nat) (h : assemble s = .err e n) : e ≠ .encode := by
  obtain ⟨-, rfl, -⟩ := assemble_err h
  decide

theorem modulate_err_ne_encode {cap : Nat} (e : ErrCode) (n : Nat) (h : modulate cap s = .err e n) :
    e ≠ .encode := by
  obtain ⟨-, rfl⟩ | ⟨-, rfl, -⟩ := modulate_err h <;> decide

/-- Every next state that `exec` answers is one of `Executes`. -/
theorem exec_next (h : exec i s = .next t) : Executes s i t := by
  cases i with
  | reset =>
    rw [exec, execReset] at h
    obtain ⟨hb, h⟩ := hostAccess_next h
    cases h
    exact .reset hb
  | bch =>
    rw [exec, execBch] at h
    exact executes_of_runOp_done rfl .bch h
  | addrcw =>
    rw [exec, execAddrcw] at h
    exact executes_of_runOp_done rfl .addrcw h
  | msgcw =>
    rw [exec, execMsgcw] at h
    exact executes_of_runOp_done rfl .msgcw h
  | packa =>
    refine executes_of_runOp rfl (fun u hs hd => ?_) pack_err_ne_encode h
    obtain ⟨hlen, hlegal, rfl⟩ := pack_done hd
    exact .packa hs hlen hlegal
  | packn =>
    refine executes_of_runOp rfl (fun u hs hd => ?_) pack_err_ne_encode h
    obtain ⟨hlen, hlegal, rfl⟩ := pack_done hd
    exact .packn hs hlen hlegal
  | asm =>
    refine executes_of_runOp rfl (fun u hs hd => ?_) assemble_err_ne_encode h
    obtain ⟨hfit, rfl⟩ := assemble_done hd
    exact .asm hs hfit
  | mod =>
    refine executes_of_runOp rfl (fun u hs hd => ?_) modulate_err_ne_encode h
    obtain ⟨hcfg, hbits, hfit, rfl⟩ := modulate_done hd
    exact .mod hs hcfg hbits hfit
  | unassigned c =>
    rw [exec, execUnassigned] at h
    refine executes_of_runOp rfl (fun u _ hd => ?_) (fun e n he => ?_) h
    · cases hd
    · cases he; decide
  | addressCw a f p e => exact executes_of_placeWord rfl h
  | messageCw m p e => exact executes_of_placeWord rfl h
  | idleCw => exact executes_of_placeWord rfl h
  | syncCw => exact executes_of_placeWord rfl h
  | preambleWord => exact executes_of_placeWord rfl h

/-! ### The frame of every instruction -/

/-- No instruction writes an operand register, `TYPE`, the text, `CUR_OP` or a field of the host's own. -/
theorem Executes.operands_eq (h : Executes s i t) :
    t.d = s.d ∧ t.ric = s.ric ∧ t.func = s.func ∧ t.pay = s.pay ∧ t.mtype = s.mtype
      ∧ t.txt = s.txt ∧ t.curOp = s.curOp ∧ t.resets = s.resets ∧ t.rdata = s.rdata
      ∧ t.prog = s.prog := by
  cases h <;> exact ⟨rfl, rfl, rfl, rfl, rfl, rfl, rfl, rfl, rfl, rfl⟩

theorem Executes.config_eq (h : Executes s i t) :
    t.cfgCenter = s.cfgCenter ∧ t.cfgBaud = s.cfgBaud ∧ t.cfgDev = s.cfgDev
      ∧ t.cfgInvert = s.cfgInvert ∧ t.cfgFs = s.cfgFs ∧ t.cfgPower = s.cfgPower ∧ t.cfgv = s.cfgv := by
  cases h <;> exact ⟨rfl, rfl, rfl, rfl, rfl, rfl, rfl⟩

theorem Executes.p_eq (h : Executes s i t) (hbch : i ≠ .bch) : t.p = s.p := by
  cases h with
  | bch => exact absurd rfl hbch
  | _ => rfl

theorem Executes.cw_eq (h : Executes s i t) (haddrcw : i ≠ .addrcw) (hmsgcw : i ≠ .msgcw) :
    t.cw = s.cw := by
  cases h with
  | addrcw => exact absurd rfl haddrcw
  | msgcw => exact absurd rfl hmsgcw
  | _ => rfl

theorem Executes.len_eq (h : Executes s i t) (hreset : i ≠ .reset) : t.len = s.len := by
  cases h with
  | reset => exact absurd rfl hreset
  | _ => rfl

theorem Executes.groups_eq (h : Executes s i t) (hpacka : i ≠ .packa) (hpackn : i ≠ .packn) :
    t.grp = s.grp ∧ (i ≠ .reset → t.ngrp = s.ngrp) := by
  cases h with
  | packa => exact absurd rfl hpacka
  | packn => exact absurd rfl hpackn
  | reset => exact ⟨rfl, absurd rfl⟩
  | _ => exact ⟨rfl, fun _ => rfl⟩

/-- `code?` is present for the operations, absent for the wire words. -/
theorem Executes.bits_eq (h : Executes s i t) (hasm : i ≠ .asm) (hop : i.code?.isSome = true) :
    t.bit = s.bit ∧ (i ≠ .reset → t.nbits = s.nbits) := by
  cases h with
  | asm => exact absurd rfl hasm
  | placed wireWord => rw [wireWord] at hop; cases hop
  | reset => exact ⟨rfl, absurd rfl⟩
  | _ => exact ⟨rfl, fun _ => rfl⟩

theorem Executes.samples_eq (h : Executes s i t) (hmod : i ≠ .mod) :
    t.smp = s.smp ∧ (i ≠ .reset → t.nsamp = s.nsamp ∧ t.phase = s.phase) := by
  cases h with
  | mod => exact absurd rfl hmod
  | reset => exact ⟨rfl, absurd rfl⟩
  | _ => exact ⟨rfl, fun _ => ⟨rfl, rfl⟩⟩

end Sys2Proof.Machine
end

section
/-! PROOFS. The machine's invariant: the states after a reset meet it, and every instruction, every host move and
every step keeps it. -/

namespace Sys2Proof.Machine

variable {s t : State} {i : Instr}

/-! ### Every instruction keeps the invariant -/

theorem State.Inv.curOp_eq_none (hs : s.Inv) (h : s.seq ≠ .busy) : s.curOp = none :=
  Option.not_isSome_iff_eq_none.mp fun hop => h (hs.busyHasOp.mpr hop)

theorem State.Inv.raise (hs : s.Inv) (hidle : s.seq = .idle) (c : Code) {e : ErrCode}
    (he : e ≠ .encode) (n : Nat) : (s.raise c e n).Inv :=
  { hs with
    busyHasOp := by simp [hs.curOp_eq_none (by simp [hidle])]
    errorRecorded := fun _ => by
      cases e with
      | encode => exact absurd rfl he
      | _ => simp [ErrCode.number]
    noErrorRecord := absurd rfl }

theorem State.Inv.softReset (hs : s.Inv) (hb : s.seq ≠ .busy) : s.softReset.Inv :=
  { hs with
    busyHasOp := by simp [hs.curOp_eq_none hb]
    errorRecorded := nofun
    noErrorRecord := fun _ => ⟨rfl, rfl, rfl⟩
    phaseBound := by simp
    samplesWritten := fun _ h => absurd h (Nat.not_lt_zero _) }

/-- `MAX_GRP` groups hold the longest alphanumeric text (00_scope.md R8). -/
theorem length_groups_streamAlpha_le {text : List Byte} (h : text.length ≤ Config.maxChars) :
    (groups (pad (streamAlpha text))).length ≤ Config.maxGrp := by
  rw [length_groups_pad, length_streamAlpha, Config.maxGrp]
  omega

theorem length_groups_streamNum_le (table : NumTable) {text : List Byte}
    (h : text.length ≤ Config.maxChars) :
    (groups (pad (streamNum table text))).length ≤ Config.maxGrp := by
  rw [length_groups_pad, length_streamNum, Config.maxGrp]
  omega

/-- `MAX_BITS` bits hold the longest transmission (00_scope.md R8). -/
theorem length_transmission_le (ric : BitVec 21) (func : BitVec 2) {g : List Group}
    (h : g.length ≤ Config.maxGrp) : (transmission ric func g).length ≤ Config.maxBits := by
  have hslot := addressSlot_le ric
  rw [length_transmission, Config.maxBits, batchCount]
  omega

theorem State.Inv.writeGroups (hs : s.Inv) {g : List Group} (hg : g.length ≤ Config.maxGrp)
    (n : Count) : { s with grp := Mem.writeBlock s.grp 0 g, ngrp := n }.Inv :=
  { hs with grpCanonical := Mem.wf_writeBlock g hs.grpCanonical (by omega) }

theorem State.Inv.writeBits (hs : s.Inv) {b : Nat} {bs : List Bit}
    (hb : b + bs.length ≤ Config.maxBits) (n : Count) :
    { s with bit := Mem.writeBlock s.bit b bs, nbits := n }.Inv :=
  { hs with bitCanonical := Mem.wf_writeBlock bs hs.bitCanonical hb }

/-- A block of samples from element 0 on keeps the invariant when `NSAMP` counts it. -/
theorem State.Inv.writeSamples (hs : s.Inv) {xs : List Sample} {n ph : Nat} (hx : xs.length = n)
    (hn : n ≤ Config.maxSamp) (hph : ph < 2 ^ 32) :
    { s with smp := Mem.writeBlock s.smp 0 xs, nsamp := BitVec.ofNat 32 n, phase := ph }.Inv :=
  { hs with
    smpCanonical := Mem.wf_writeBlock xs hs.smpCanonical (by omega)
    phaseBound := hph
    samplesWritten := fun k hk => by
      have hk : k < xs.length := hx ▸ lt_of_lt_of_le hk (Nat.mod_le _ _)
      simp [Mem.get?_writeBlock, hk] }

theorem Executes.inv (h : Executes s i t) (hs : s.Inv) : t.Inv := by
  cases h with
  | ignored => exact hs
  | raised n _ seqIdle notEncode => exact hs.raise seqIdle _ notEncode n
  | reset notBusy => exact hs.softReset notBusy
  | bch => exact { hs with }
  | addrcw => exact { hs with }
  | msgcw => exact { hs with }
  | packa _ lenFits _ => exact hs.writeGroups (length_groups_streamAlpha_le (by simpa using lenFits)) _
  | packn _ lenFits _ => exact hs.writeGroups (length_groups_streamNum_le _ (by simpa using lenFits)) _
  | asm _ groupsFit =>
    exact hs.writeBits (by simpa using length_transmission_le _ _ (by simpa using groupsFit)) _
  | mod _ configOk _ samplesFit =>
    obtain ⟨-, -, hfs, -⟩ := configCheck_none configOk
    have hphase := lastPhase_lt s.cfgDev.toNat s.cfgInvert 0 (sampleBits s.spb s.bitList) hfs hfs
    exact hs.writeSamples (by simp) samplesFit (hphase.trans s.cfgFs.isLt)
  | placed _ _ wordFits => exact hs.writeBits (by simpa using wordFits) _

/-- Every instruction keeps the machine's invariant. -/
theorem State.Inv.exec (hs : s.Inv) (h : exec i s = .next t) : t.Inv := (exec_next h).inv hs

/-! ### The states after a reset meet the invariant -/

theorem State.inv_afterReset (n : Nat) : (State.afterReset n).Inv where
  txtCanonical := rfl
  grpCanonical := rfl
  bitCanonical := rfl
  smpCanonical := rfl
  busyHasOp := ⟨nofun, nofun⟩
  opTakesTime := nofun
  errorRecorded := nofun
  noErrorRecord := fun _ => ⟨rfl, rfl, rfl⟩
  phaseBound := Nat.two_pow_pos 32
  samplesWritten := fun _ h => absurd h (Nat.not_lt_zero _)

theorem State.inv_hardReset (s : State) : s.hardReset.Inv :=
  { State.inv_afterReset (s.resets + 1) with }

/-! ### Every move keeps the invariant -/

/-- A busy block that is about to end its operation, as `blockTurn` hands it to `exec`. -/
theorem State.Inv.endBusy (hs : s.Inv) (hb : s.seq = .busy) :
    { s with seq := .idle, curOp := none }.Inv :=
  { hs with
    busyHasOp := ⟨nofun, nofun⟩
    opTakesTime := nofun
    errorRecorded := nofun
    noErrorRecord := fun _ => hs.noErrorRecord (by simp [hb]) }

theorem State.Inv.startBusy (hs : s.Inv) (hi : s.seq = .idle) {c : Code} (h0 : c ≠ 0#4) (h8 : c < 8#4) :
    { s with seq := .busy, curOp := some c }.Inv :=
  { hs with
    busyHasOp := by simp
    opTakesTime := fun _ h => by cases h; exact ⟨h0, h8⟩
    errorRecorded := nofun
    noErrorRecord := fun _ => hs.noErrorRecord (by simp [hi]) }

theorem State.Inv.blockTurn (hs : s.Inv) (h : blockTurn s = .next t) : t.Inv := by
  obtain ⟨c, hc, h⟩ | ⟨-, rfl⟩ := blockTurn_next h
  · have hb : s.seq = .busy := hs.busyHasOp.mpr (by rw [hc]; rfl)
    exact (hs.endBusy hb).exec h
  · exact hs

theorem State.Inv.cmdWrite (hs : s.Inv) {c : Code} (h : cmdWrite c s = .next t) : t.Inv := by
  obtain ⟨-, h⟩ | ⟨-, -, h⟩ | ⟨hi, h0, h8, rfl⟩ := cmdWrite_next h
  · exact hs.exec h
  · exact hs.exec h
  · exact hs.startBusy hi h0 h8

/-- The registers the host may write are none the invariant speaks of. -/
theorem State.Inv.regWrite (hs : s.Inv) (r : Reg) (v : Nat) : (s.regWrite r v).Inv := by
  cases r <;> exact { hs with }

theorem State.Inv.hostWr (hs : s.Inv) {n v : Nat} (h : hostWr n v s = .next t) : t.Inv := by
  obtain ⟨-, r, -, ⟨-, rfl⟩ | ⟨-, -, h⟩ | ⟨-, -, -, rfl⟩⟩ := hostWr_next h
  · exact hs
  · exact hs.cmdWrite h
  · exact hs.regWrite r v

theorem State.Inv.hostWrm (hs : s.Inv) {n i v : Nat} (h : hostWrm n i v s = .next t) : t.Inv := by
  obtain ⟨-, ⟨-, hi, -, rfl⟩ | ⟨-, hi, -, rfl⟩ | ⟨-, hi, -, rfl⟩ | ⟨-, -, rfl⟩⟩ := hostWrm_next h
  · exact { hs with txtCanonical := Mem.wf_write _ hs.txtCanonical hi }
  · exact { hs with grpCanonical := Mem.wf_write _ hs.grpCanonical hi }
  · exact { hs with bitCanonical := Mem.wf_write _ hs.bitCanonical hi }
  · exact hs

theorem State.Inv.hostTxt (hs : s.Inv) {chars : List Byte} (h : hostTxt chars s = .next t) : t.Inv := by
  obtain ⟨-, hl, rfl⟩ := hostTxt_next h
  exact { hs with txtCanonical := Mem.wf_writeBlock chars hs.txtCanonical (by omega) }

/-- `ENCODE` is three instructions, each of which keeps the invariant. -/
theorem State.Inv.hostEncode (hs : s.Inv) (h : hostEncode s = .next t) : t.Inv := by
  obtain ⟨u, hpack, h⟩ := thenUnlessError_next h
  have hu : u.Inv := by
    split at hpack
    · exact hs.exec (i := .packa) hpack
    · exact hs.exec (i := .packn) hpack
  obtain ⟨-, rfl⟩ | ⟨-, h⟩ := h
  · exact hu
  obtain ⟨v, hasm, h⟩ := thenUnlessError_next h
  have hv : v.Inv := hu.exec (i := .asm) hasm
  obtain ⟨-, rfl⟩ | ⟨-, hmod⟩ := h
  · exact hv
  · exact hv.exec (i := .mod) hmod

theorem fetchRun_next {bytes : List Byte} (h : fetchRun bytes s = .next t) :
    ∃ i, decode bytes = .ok i ∧ exec i s = .next t := by
  simp only [fetchRun] at h
  split at h
  · next i hi => exact ⟨i, hi, h⟩
  · cases h

theorem State.Inv.runMove (hs : s.Inv) {m : HostMove} (h : runMove m s = .next t) : t.Inv := by
  cases m with
  | instr bytes =>
    obtain ⟨i, -, h⟩ := fetchRun_next h
    exact hs.exec h
  | wr n v => exact hs.hostWr h
  | wrm n i v => exact hs.hostWrm h
  | rd n =>
    obtain ⟨r, -, rfl⟩ := hostRd_next h
    exact { hs with }
  | rdm n i =>
    obtain ⟨sp, -, -, rfl⟩ := hostRdm_next h
    exact { hs with }
  | txt chars => exact hs.hostTxt h
  | encode => exact hs.hostEncode h
  | blockTurn => exact hs.blockTurn h
  | hardReset => cases h; exact s.inv_hardReset

/-! ### Every step keeps the invariant -/

theorem step_nil (h : s.prog = []) : step s = blockTurn s := by
  simp only [step, nextMove, h]

theorem step_cons {m : HostMove} {ms : List HostMove} (h : s.prog = m :: ms) :
    step s = runMove m { s with prog := ms } := by
  simp only [step, nextMove, h]

theorem State.Inv.step (hs : s.Inv) (h : step s = .next t) : t.Inv := by
  cases hprog : s.prog with
  | nil =>
    rw [step_nil hprog] at h
    exact hs.blockTurn h
  | cons m ms =>
    rw [step_cons hprog] at h
    have hs' : { s with prog := ms }.Inv := { hs with }
    exact hs'.runMove h

end Sys2Proof.Machine
end

section
/-! PROOFS. What a hardware reset leaves to be read, what a waiting block does, the fields of `STATUS`, and the
obligations of 10_state.md. -/

namespace Sys2Proof.Machine

/-! ### What is read after a hardware reset (10_state.md R50) -/

@[simp] theorem State.hardReset_statusWord (s : State) : s.hardReset.statusWord = 0#10 := by
  simp [State.statusWord, CfgValid.bits, SeqState.code]
@[simp] theorem State.hardReset_txtAt (s : State) (i : Nat) :
    s.hardReset.txtAt i = Config.resetTxt (s.resets + 1) i := rfl
@[simp] theorem State.hardReset_grpAt (s : State) (i : Nat) :
    s.hardReset.grpAt i = Config.resetGrp (s.resets + 1) i := rfl
@[simp] theorem State.hardReset_bitAt (s : State) (i : Nat) :
    s.hardReset.bitAt i = Config.resetBit (s.resets + 1) i := rfl
@[simp] theorem State.hardReset_smpAt (s : State) (i : Nat) :
    s.hardReset.smpAt i = Config.resetSmp (s.resets + 1) i := rfl

/-! ### Waiting -/

theorem blockTurn_of_curOp_eq_none {s : State} (h : s.curOp = none) : blockTurn s = .next s := by
  simp only [blockTurn, h]

/-! ### The fields of `STATUS` (10_state.md R29) -/

/-- The bits of `STATUS`, `STATE` lowest. -/
theorem getLsbD_statusWord (s : State) (i : Nat) :
    s.statusWord.getLsbD i =
      if i < 2 then s.seq.code.getLsbD i
      else if i < 4 then false
      else s.cfgv.bits.getLsbD (i - 4) := by
  change BitVec.getLsbD (w := 6 + 2 + 2) (s.cfgv.bits ++ 0#2 ++ s.seq.code) i = _
  by_cases hstate : i < 2
  · simp only [BitVec.getLsbD_append, if_pos hstate]
  · have hreserved : i - 2 < 2 ↔ i < 4 := by omega
    simp only [BitVec.getLsbD_append, if_neg hstate, hreserved, Nat.sub_sub, BitVec.getLsbD_zero]

/-- `CFGV` at bits 9:4 of a read of `STATUS`. -/
theorem getLsbD_status_cfgv (s : State) {i : Nat} (hi : i < 6) :
    (s.statusWord.setWidth 32).getLsbD (i + 4) = s.cfgv.bits.getLsbD i := by
  rw [BitVec.getLsbD_setWidth, getLsbD_statusWord, if_neg (by omega), if_neg (by omega),
    Nat.add_sub_cancel, decide_eq_true (by omega), Bool.true_and]

/-- The bit of each `CFGV` field, `CENTER` lowest. -/
theorem CfgValid.getLsbD_bits (v : CfgValid) :
    v.bits.getLsbD 0 = v.center ∧ v.bits.getLsbD 1 = v.baud ∧ v.bits.getLsbD 2 = v.dev
      ∧ v.bits.getLsbD 3 = v.invert ∧ v.bits.getLsbD 4 = v.fs ∧ v.bits.getLsbD 5 = v.power := by
  obtain ⟨center, baud, dev, invert, fs, power⟩ := v
  revert center baud dev invert fs power
  decide

/-- `STATE` at bits 1:0. -/
theorem extractLsb'_status_state (s : State) :
    (s.statusWord.setWidth 32).extractLsb' 0 2 = s.seq.code := by
  refine BitVec.eq_of_getLsbD_eq fun i hi => ?_
  simp [getLsbD_statusWord, hi, show i < 32 by omega]

/-- The reserved bits 3:2. -/
theorem extractLsb'_status_reserved (s : State) :
    (s.statusWord.setWidth 32).extractLsb' 2 2 = 0#2 := by
  refine BitVec.eq_of_getLsbD_eq fun i hi => ?_
  simp [getLsbD_statusWord, show 2 + i < 4 by omega]

/-- `STATUS` has ten bits. -/
theorem extractLsb'_status_high (s : State) :
    (s.statusWord.setWidth 32).extractLsb' 10 22 = 0#22 := by
  refine BitVec.eq_of_getLsbD_eq fun i hi => ?_
  simp

/-! ### The obligations -/

/-- Settles O3: each move keeps the invariant, an instruction by the case of `Executes` it ends in. -/
theorem everyStepKeepsInvariant : Obligations.EveryStepKeepsInvariant := by
  unfold Obligations.EveryStepKeepsInvariant
  intro s t hs h
  exact hs.step h

/-- Settles O41: no case of `Executes` writes the configuration. -/
theorem noInstructionWritesConfiguration : Obligations.NoInstructionWritesConfiguration := by
  unfold Obligations.NoInstructionWritesConfiguration
  intro s t i h
  exact (exec_next h).config_eq

/-- Settles O42: one frame lemma of `Executes` for each group of registers and memory. -/
theorem instructionsWriteOnlyTheirResults : Obligations.InstructionsWriteOnlyTheirResults := by
  unfold Obligations.InstructionsWriteOnlyTheirResults
  intro s t i h
  have hx := exec_next h
  exact ⟨hx.operands_eq, hx.p_eq, hx.cw_eq, hx.len_eq, hx.groups_eq, hx.bits_eq, hx.samples_eq⟩

/-- Settles O1: the step is `hardReset` of the state without that move, whose fields are known one by one. -/
theorem hardwareResetGivesResetValues : Obligations.HardwareResetGivesResetValues := by
  unfold Obligations.HardwareResetGivesResetValues
  intro s ms
  exact ⟨State.hardReset { s with prog := ms }, rfl, by simp⟩

/-- Settles O2: `State.reset` is the state after hardware reset number 0. -/
theorem resetStateMeetsInvariant : Obligations.ResetStateMeetsInvariant := by
  unfold Obligations.ResetStateMeetsInvariant
  exact State.inv_afterReset 0

/-- Settles O4: with no move left the block takes its turn, and with no operation in progress it waits. -/
theorem idleBlockWaits : Obligations.IdleBlockWaits := by
  unfold Obligations.IdleBlockWaits
  intro s hprog hcur
  rw [step_nil hprog, blockTurn_of_curOp_eq_none hcur]

/-- Settles O48: the datum read is `statusWord`, whose fields are known one by one. -/
theorem statusReadShowsFields : Obligations.StatusReadShowsFields := by
  unfold Obligations.StatusReadShowsFields
  intro s
  obtain ⟨hcenter, hbaud, hdev, hinvert, hfs, hpower⟩ := s.cfgv.getLsbD_bits
  have hcfgv := fun i (hi : i < 6) => getLsbD_status_cfgv s hi
  refine ⟨s.statusWord.setWidth 32, rfl, ?_, ?_, ?_, extractLsb'_status_reserved s,
    (hcfgv 0 (by decide)).trans hcenter, (hcfgv 1 (by decide)).trans hbaud,
    (hcfgv 2 (by decide)).trans hdev, (hcfgv 3 (by decide)).trans hinvert,
    (hcfgv 4 (by decide)).trans hfs, (hcfgv 5 (by decide)).trans hpower, extractLsb'_status_high s⟩
  all_goals
    rw [extractLsb'_status_state]
    cases s.seq <;> decide

end Sys2Proof.Machine
end

section
/-! PROOFS. What a wire word and a host access of the registers and memories answer, outcome by outcome, and the
obligations of 20_memory.md. -/

namespace Sys2Proof.Machine

variable {s : State}

/-! ### The wire words (log 13) -/

/-- Every wire word as an instruction is the placing of its 32 bits. -/
theorem exec_eq_placeWord {i : Instr} (hi : i.code? = none) : exec i s = placeWord i.word s := by
  cases i with
  | addressCw | messageCw | idleCw | syncCw | preambleWord => rfl
  | _ => cases hi

theorem placeWord_of_fits (w : Word32) (hb : s.seq ≠ .busy) (hfit : s.nbits.toNat + 32 ≤ Config.maxBits) :
    placeWord w s = .next { s with
      bit := Mem.writeBlock s.bit s.nbits.toNat (bitsMsb 32 w)
      nbits := s.nbits + 32 } := by
  rw [placeWord, hostAccess_of_ne_busy _ hb, if_pos hfit]

theorem placeWord_of_past (w : Word32) (hb : s.seq ≠ .busy) (hpast : Config.maxBits < s.nbits.toNat + 32) :
    placeWord w s = .fault (.noSuchElement 2 (max s.nbits.toNat Config.maxBits)) := by
  rw [placeWord, hostAccess_of_ne_busy _ hb, if_neg (by omega)]

/-- Element `j` of a memory into which a word was put at `b`, bit 31 first (20_memory.md R66). -/
theorem Mem.read_writeBlock_bitsMsb (free : Nat → Bit) (m : Mem Bit) (b : Nat) (w : Word32) :
    (∀ k, k < 32 → Mem.read free (Mem.writeBlock m b (bitsMsb 32 w)) (b + k) = w.extractLsb' (31 - k) 1)
      ∧ ∀ j, j < b ∨ b + 32 ≤ j →
        Mem.read free (Mem.writeBlock m b (bitsMsb 32 w)) j = Mem.read free m j := by
  constructor
  · intro k hk
    rw [Mem.read_writeBlock, length_bitsMsb, if_pos (by omega), Nat.add_sub_cancel_left,
      getElem?_bitsMsb 32 w hk, Option.getD_some]
  · intro j hj
    rw [Mem.read_writeBlock, length_bitsMsb, if_neg (by omega)]

theorem placesWord_placeWord (w : Word32) (hb : s.seq ≠ .busy)
    (hfit : s.nbits.toNat + 32 ≤ Config.maxBits) : PlacesWord s w (placeWord w s) := by
  obtain ⟨hword, hframe⟩ :=
    Mem.read_writeBlock_bitsMsb (Config.resetBit s.resets) s.bit s.nbits.toNat w
  exact ⟨_, placeWord_of_fits w hb hfit, rfl, hword, hframe, rfl⟩

/-! ### Host accesses of registers (45_control_ops.md R222) -/

/-- The register numbers that 10_state.md R22, R28 and R30 leave out. -/
theorem regOf_eq_none {n : Nat}
    (h : (4 < n ∧ n < 8) ∨ n = 0x0F ∨ (0x13 < n ∧ n < 0x18) ∨ 0x1D < n) : regOf n = none := by
  rw [regOf]
  repeat rw [if_neg (by omega)]

theorem hostWr_of_no_register {n : Nat} (v : Nat) (hb : s.seq ≠ .busy) (hn : regOf n = none) :
    hostWr n v s = .fault (.noSuchRegister n) := by
  rw [hostWr, hostAccess_of_ne_busy _ hb, hn]

/-- `STATUS`, the register with a path of its own, is listed. -/
theorem hostRd_of_no_register {n : Nat} (hb : s.seq ≠ .busy) (hn : regOf n = none) :
    hostRd n s = .fault (.noSuchRegister n) := by
  have hstatus : n ≠ 0x01 := by rintro rfl; cases hn
  rw [hostRd, if_neg hstatus, hostAccess_of_ne_busy _ hb, hn]

theorem hostWr_of_too_wide {n v : Nat} {r : Reg} (hb : s.seq ≠ .busy) (hn : regOf n = some r)
    (hro : r.readOnly = false) (hv : 2 ^ r.width ≤ v) : hostWr n v s = .refused (.valueTooWide v) := by
  rw [hostWr, hostAccess_of_ne_busy _ hb, hn]
  simp only [hro, Bool.false_eq_true, if_false, if_neg (Nat.not_lt.mpr hv)]

/-! ### Host accesses of memories (20_memory.md R60, R61) -/

theorem spaceOf_txt : spaceOf 0 = some .txt := rfl
theorem spaceOf_grp : spaceOf 1 = some .grp := rfl
theorem spaceOf_bit : spaceOf 2 = some .bit := rfl

theorem spaceOf_eq_none {n : Nat} (h : 3 < n) : spaceOf n = none := by
  rw [spaceOf]
  repeat rw [if_neg (by omega)]

theorem hostWrm_of_no_space {n : Nat} (i v : Nat) (hb : s.seq ≠ .busy) (hn : spaceOf n = none) :
    hostWrm n i v s = .fault (.noSuchSpace n) := by
  rw [hostWrm, hostAccess_of_ne_busy _ hb, hn]

theorem hostRdm_of_no_space {n : Nat} (i : Nat) (hb : s.seq ≠ .busy) (hn : spaceOf n = none) :
    hostRdm n i s = .fault (.noSuchSpace n) := by
  rw [hostRdm, hostAccess_of_ne_busy _ hb, hn]

section
variable {n i : Nat} {sp : Space}

theorem hostWrm_of_no_element (v : Nat) (hb : s.seq ≠ .busy) (hn : spaceOf n = some sp)
    (hi : sp.capacity ≤ i) : hostWrm n i v s = .fault (.noSuchElement n i) := by
  rw [hostWrm, hostAccess_of_ne_busy _ hb, hn]
  exact if_neg (Nat.not_lt.mpr hi)

theorem hostRdm_of_no_element (hb : s.seq ≠ .busy) (hn : spaceOf n = some sp)
    (hi : sp.capacity ≤ i) : hostRdm n i s = .fault (.noSuchElement n i) := by
  rw [hostRdm, hostAccess_of_ne_busy _ hb, hn]
  exact if_neg (Nat.not_lt.mpr hi)

theorem hostWrm_of_element (v : Nat) (hb : s.seq ≠ .busy) (hn : spaceOf n = some sp)
    (hi : i < sp.capacity) : hostWrm n i v s = s.memWrite sp i v := by
  rw [hostWrm, hostAccess_of_ne_busy _ hb, hn]
  exact if_pos hi

end

/-! What a write of an element answers, by the width of the memory's elements (10_state.md R40 to R42). -/

section
variable {v : Nat} (i : Nat)

theorem State.memWrite_txt (hv : v < 2 ^ 8) :
    s.memWrite .txt i v = .next { s with txt := Mem.write s.txt i (BitVec.ofNat 8 v) } := if_pos hv
theorem State.memWrite_grp (hv : v < 2 ^ 20) :
    s.memWrite .grp i v = .next { s with grp := Mem.write s.grp i (BitVec.ofNat 20 v) } := if_pos hv
theorem State.memWrite_bit (hv : v < 2 ^ 1) :
    s.memWrite .bit i v = .next { s with bit := Mem.write s.bit i (BitVec.ofNat 1 v) } := if_pos hv

theorem State.memWrite_txt_of_too_wide (hv : 2 ^ 8 ≤ v) :
    s.memWrite .txt i v = .refused (.valueTooWide v) := if_neg (Nat.not_lt.mpr hv)
theorem State.memWrite_grp_of_too_wide (hv : 2 ^ 20 ≤ v) :
    s.memWrite .grp i v = .refused (.valueTooWide v) := if_neg (Nat.not_lt.mpr hv)
theorem State.memWrite_bit_of_too_wide (hv : 2 ^ 1 ≤ v) :
    s.memWrite .bit i v = .refused (.valueTooWide v) := if_neg (Nat.not_lt.mpr hv)

end

/-- A number that fits the elements of a memory is read back where it was written, and nowhere else. -/
theorem Mem.read_write_ofNat {w v : Nat} (free : Nat → BitVec w) (m : Mem (BitVec w)) (i : Nat)
    (hv : v < 2 ^ w) :
    (Mem.read free (Mem.write m i (BitVec.ofNat w v)) i).toNat = v
      ∧ ∀ k, k ≠ i → Mem.read free (Mem.write m i (BitVec.ofNat w v)) k = Mem.read free m k := by
  constructor
  · rw [Mem.read_write, if_pos rfl, BitVec.toNat_ofNat, Nat.mod_eq_of_lt hv]
  · intro k hk
    rw [Mem.read_write, if_neg hk]

/-! ### The obligations -/

/-- Settles O43: each of the five is the placing of its word. -/
theorem wireWordsArePlaced : Obligations.WireWordsArePlaced := by
  unfold Obligations.WireWordsArePlaced
  intro s hb hfit
  have hplaced (w : Word32) := placesWord_placeWord w hb hfit
  exact ⟨fun a f p e => hplaced (addressWord a f p e), fun m p e => hplaced (messageWord m p e),
    hplaced idleWord, hplaced syncWord, hplaced preambleWord⟩

/-- Settles O44: an instruction without a code is the placing of its word. -/
theorem wireWordPastBitMemoryFaults : Obligations.WireWordPastBitMemoryFaults := by
  unfold Obligations.WireWordPastBitMemoryFaults
  intro s i hi hb hpast
  rw [exec_eq_placeWord hi, placeWord_of_past _ hb hpast]

/-- Settles O54: in each memory the move is one `Mem.write` of the value. -/
theorem hostElementWriteIsReadBack : Obligations.HostElementWriteIsReadBack := by
  unfold Obligations.HostElementWriteIsReadBack
  intro s i v hb
  refine ⟨fun hi hv => ?_, fun hi hv => ?_, fun hi hv => ?_⟩
  · exact ⟨_, (hostWrm_of_element v hb spaceOf_txt hi).trans (State.memWrite_txt i hv), rfl,
      Mem.read_write_ofNat (Config.resetTxt s.resets) s.txt i hv⟩
  · exact ⟨_, (hostWrm_of_element v hb spaceOf_grp hi).trans (State.memWrite_grp i hv), rfl,
      Mem.read_write_ofNat (Config.resetGrp s.resets) s.grp i hv⟩
  · exact ⟨_, (hostWrm_of_element v hb spaceOf_bit hi).trans (State.memWrite_bit i hv), rfl,
      Mem.read_write_ofNat (Config.resetBit s.resets) s.bit i hv⟩

/-- Settles O55: one lemma for each way in which an access names nothing or a value does not fit. -/
theorem missingPlacesAndWideValuesStop : Obligations.MissingPlacesAndWideValuesStop := by
  unfold Obligations.MissingPlacesAndWideValuesStop
  intro s hb
  refine ⟨fun n v hn => ?_, fun n i v hn => ?_, fun n sp i v hn hi => ?_,
    fun n r v hn hro hv => hostWr_of_too_wide hb hn hro hv,
    fun i v hi hv => ?_, fun i v hi hv => ?_, fun i v hi hv => ?_⟩
  · exact ⟨hostWr_of_no_register v hb (regOf_eq_none hn), hostRd_of_no_register hb (regOf_eq_none hn)⟩
  · exact ⟨hostWrm_of_no_space i v hb (spaceOf_eq_none hn), hostRdm_of_no_space i hb (spaceOf_eq_none hn)⟩
  · exact ⟨hostWrm_of_no_element v hb hn hi, hostRdm_of_no_element hb hn hi⟩
  · exact (hostWrm_of_element v hb spaceOf_txt hi).trans (State.memWrite_txt_of_too_wide i hv)
  · exact (hostWrm_of_element v hb spaceOf_grp hi).trans (State.memWrite_grp_of_too_wide i hv)
  · exact (hostWrm_of_element v hb spaceOf_bit hi).trans (State.memWrite_bit_of_too_wide i hv)

end Sys2Proof.Machine
end

section
/-! PROOFS. Which instruction a code, a word and a list of bytes stand for, and the obligations about the
decoder and the encoder (30_encoding.md R110 to R118). -/

namespace Sys2Proof

open Machine

/-! ### Operation codes (30_encoding.md R110, R111) -/

/-- The instruction of a code is the one whose code it is. -/
theorem decodeCode_eq_iff (c : Code) (i : Instr) : decodeCode c = i ↔ i.code? = some c := by
  constructor
  · rintro rfl
    revert c
    decide
  · intro h
    cases i with
    | unassigned u =>
      cases h
      revert u
      decide
    | reset | bch | addrcw | msgcw | packa | packn | asm | mod => cases h; rfl
    | addressCw | messageCw | idleCw | syncCw | preambleWord => cases h

theorem wellFormed_of_code? {i : Instr} {c : Code} (h : i.code? = some c) : WellFormed i := by
  cases i with
  | addressCw | messageCw | idleCw | syncCw | preambleWord => cases h
  | _ => rfl

theorem encode_of_code? {i : Instr} {c : Code} (h : i.code? = some c) : encode i = [c.setWidth 8] := by
  rw [encode, h]

/-- A byte that holds a code is read as that code (10_state.md R28). -/
theorem decode_codeByte (c : Code) : decode [c.setWidth 8] = .ok (decodeCode c) := by
  revert c
  decide

/-- A byte below 16 holds the code of its low four bits. -/
theorem exists_code_of_lt {b : Byte} (h : b.toNat < 16) : ∃ c : Code, b = c.setWidth 8 := by
  refine ⟨b.extractLsb' 0 4, BitVec.eq_of_toNat_eq ?_⟩
  simp only [BitVec.toNat_setWidth, BitVec.extractLsb'_toNat, Nat.shiftRight_zero, Nat.reducePow]
  omega

theorem decode_byte_of_ge {b : Byte} (h : 16 ≤ b.toNat) : decode [b] = .error .codeTooWide :=
  if_neg (Nat.not_lt.mpr h)

/-! ### The fields of a wire word (30_encoding.md R92, R93) -/

/-- Bit `i` of a word is bit `i - start` of a field that covers it. -/
theorem getLsbD_field (w : Word32) {start len i : Nat} (h : start ≤ i) (hi : i < start + len) :
    (w.extractLsb' start len).getLsbD (i - start) = w.getLsbD i := by
  rw [BitVec.getLsbD_extractLsb', decide_eq_true (by omega), Bool.true_and, Nat.add_sub_cancel' h]

/-- A word with bit 31 clear is the address word of its fields. -/
theorem addressWord_fields {w : Word32} (h : w.getLsbD 31 = false) :
    addressWord (w.extractLsb' 13 18) (w.extractLsb' 11 2) (w.extractLsb' 1 10) (w.extractLsb' 0 1)
      = w := by
  refine BitVec.eq_of_getLsbD_eq fun i hi => ?_
  rw [getLsbD_addressWord]
  split_ifs
  · exact getLsbD_field w (Nat.zero_le i) (by omega)
  · exact getLsbD_field w (by omega) (by omega)
  · exact getLsbD_field w (by omega) (by omega)
  · obtain rfl | hlt : i = 31 ∨ i < 31 := by omega
    · rw [h, BitVec.getLsbD_of_ge _ _ (by omega)]
    · exact getLsbD_field w (by omega) (by omega)

/-- A word with bit 11 set is the message word of its fields. -/
theorem messageWord_fields {w : Word32} (h : w.getLsbD 11 = true) :
    messageWord (w.extractLsb' 12 20) (w.extractLsb' 1 10) (w.extractLsb' 0 1) = w := by
  refine BitVec.eq_of_getLsbD_eq fun i hi => ?_
  rw [getLsbD_messageWord]
  split_ifs
  · exact getLsbD_field w (Nat.zero_le i) (by omega)
  · exact getLsbD_field w (by omega) (by omega)
  · rw [show i = 11 by omega, h]
  · exact getLsbD_field w (by omega) (by omega)

/-- The fields of an address word are its operands. -/
theorem fields_addressWord (a : BitVec 18) (f : BitVec 2) (p : BitVec 10) (e : Bit) :
    (addressWord a f p e).extractLsb' 13 18 = a ∧ (addressWord a f p e).extractLsb' 11 2 = f
      ∧ (addressWord a f p e).extractLsb' 1 10 = p ∧ (addressWord a f p e).extractLsb' 0 1 = e := by
  refine ⟨?_, ?_, ?_, ?_⟩ <;> refine BitVec.eq_of_getLsbD_eq fun i hi => ?_
  all_goals
    rw [BitVec.getLsbD_extractLsb', getLsbD_addressWord]
    grind

theorem fields_messageWord (m : Group) (p : BitVec 10) (e : Bit) :
    (messageWord m p e).extractLsb' 12 20 = m ∧ (messageWord m p e).extractLsb' 1 10 = p
      ∧ (messageWord m p e).extractLsb' 0 1 = e := by
  refine ⟨?_, ?_, ?_⟩ <;> refine BitVec.eq_of_getLsbD_eq fun i hi => ?_
  all_goals
    rw [BitVec.getLsbD_extractLsb', getLsbD_messageWord]
    grind

/-! ### The row of a wire word (30_encoding.md R114, R115; log 14) -/

section
variable {w : Word32} {i : Instr}

theorem decodeWord_idleWord : decodeWord idleWord = .ok .idleCw := by decide
theorem decodeWord_syncWord : decodeWord syncWord = .ok .syncCw := by decide
theorem decodeWord_preambleWord : decodeWord preambleWord = .ok .preambleWord := by decide

/-- The message flag parts a message word from the idle and the sync codeword. -/
theorem decodeWord_of_flag (h11 : w.getLsbD 11 = true) (hpre : w ≠ preambleWord) :
    decodeWord w
      = .ok (.messageCw (w.extractLsb' 12 20) (w.extractLsb' 1 10) (w.extractLsb' 0 1)) := by
  have hidle : w ≠ idleWord := by rintro rfl; exact absurd h11 (by decide)
  have hsync : w ≠ syncWord := by rintro rfl; exact absurd h11 (by decide)
  rw [decodeWord, if_neg hidle, if_neg hsync, if_neg hpre, if_pos h11]

/-- Without the message flag a word is no preamble word, and bit 31 decides. -/
theorem decodeWord_of_no_flag (h11 : w.getLsbD 11 = false) (hidle : w ≠ idleWord)
    (hsync : w ≠ syncWord) :
    decodeWord w = if w.getLsbD 31 then .error .noFormat else
      .ok (.addressCw (w.extractLsb' 13 18) (w.extractLsb' 11 2) (w.extractLsb' 1 10)
        (w.extractLsb' 0 1)) := by
  have hpre : w ≠ preambleWord := by rintro rfl; exact absurd h11 (by decide)
  rw [decodeWord, if_neg hidle, if_neg hsync, if_neg hpre, h11, if_neg Bool.false_ne_true]

/-- The rows a word can belong to. -/
theorem wireWord_cases (w : Word32) :
    w = idleWord ∨ w = syncWord ∨ w = preambleWord ∨ (w.getLsbD 11 = true ∧ w ≠ preambleWord)
      ∨ (w.getLsbD 11 = false ∧ w ≠ idleWord ∧ w ≠ syncWord) := by
  cases w.getLsbD 11 <;> tauto

/-- A word is no instruction exactly when it has neither the address format's 0 at bit 31 nor the message
flag at bit 11. -/
theorem decodeWord_error_iff :
    (∃ e, decodeWord w = .error e) ↔ w.getLsbD 31 = true ∧ w.getLsbD 11 = false := by
  obtain rfl | rfl | rfl | ⟨h11, hpre⟩ | ⟨h11, hidle, hsync⟩ := wireWord_cases w
  · exact iff_of_false (by simp [decodeWord_idleWord]) (by decide)
  · exact iff_of_false (by simp [decodeWord_syncWord]) (by decide)
  · exact iff_of_false (by simp [decodeWord_preambleWord]) (by decide)
  · simp [decodeWord_of_flag h11 hpre, h11]
  · rw [decodeWord_of_no_flag h11 hidle hsync, h11]
    cases w.getLsbD 31 <;> simp

/-- The word of a well-formed instruction without a code is read as that instruction. -/
theorem decodeWord_word (hc : i.code? = none) (hwf : WellFormed i) : decodeWord i.word = .ok i := by
  cases i with
  | addressCw a f p e =>
    simp only [WellFormed, Instr.wf, Bool.and_eq_true, Bool.not_eq_true', bne_iff_ne] at hwf
    obtain ⟨⟨hf, hidle⟩, hsync⟩ := hwf
    have h11 : (addressWord a f p e).getLsbD 11 = false := by rw [getLsbD_addressWord]; exact hf
    have h31 : (addressWord a f p e).getLsbD 31 = false := by
      rw [getLsbD_addressWord]; exact BitVec.getLsbD_of_ge a 18 le_rfl
    obtain ⟨ha, hf, hp, he⟩ := fields_addressWord a f p e
    rw [Instr.word, decodeWord_of_no_flag h11 hidle hsync, h31, ha, hf, hp, he]
    rfl
  | messageCw m p e =>
    have h11 : (messageWord m p e).getLsbD 11 = true := by rw [getLsbD_messageWord]; rfl
    obtain ⟨hm, hp, he⟩ := fields_messageWord m p e
    rw [Instr.word, decodeWord_of_flag h11 (bne_iff_ne.mp hwf), hm, hp, he]
  | idleCw => exact decodeWord_idleWord
  | syncCw => exact decodeWord_syncWord
  | preambleWord => exact decodeWord_preambleWord
  | _ => cases hc

/-- What is read from a word is a well-formed instruction without a code, whose word it is. -/
theorem decodeWord_ok (h : decodeWord w = .ok i) : i.code? = none ∧ WellFormed i ∧ i.word = w := by
  obtain rfl | rfl | rfl | ⟨h11, hpre⟩ | ⟨h11, hidle, hsync⟩ := wireWord_cases w
  · cases decodeWord_idleWord.symm.trans h; exact ⟨rfl, rfl, rfl⟩
  · cases decodeWord_syncWord.symm.trans h; exact ⟨rfl, rfl, rfl⟩
  · cases decodeWord_preambleWord.symm.trans h; exact ⟨rfl, rfl, rfl⟩
  · cases (decodeWord_of_flag h11 hpre).symm.trans h
    refine ⟨rfl, ?_, messageWord_fields h11⟩
    rw [WellFormed, Instr.wf, messageWord_fields h11]
    exact bne_iff_ne.mpr hpre
  · rw [decodeWord_of_no_flag h11 hidle hsync] at h
    cases h31 : w.getLsbD 31 with
    | true => rw [h31] at h; cases h
    | false =>
      rw [h31] at h
      cases h
      have hf : (w.extractLsb' 11 2).getLsbD (11 - 11) = false :=
        (getLsbD_field w le_rfl (by decide)).trans h11
      refine ⟨rfl, ?_, addressWord_fields h31⟩
      rw [WellFormed, Instr.wf, addressWord_fields h31, hf]
      simp [hidle, hsync]

end

/-! ### Bytes (20_memory.md R66; log 15) -/

/-- The four bytes of a word, laid side by side, are the word. -/
theorem bytes_of_word (w : Word32) :
    w.extractLsb' 24 8 ++ w.extractLsb' 16 8 ++ w.extractLsb' 8 8 ++ w.extractLsb' 0 8 = w := by
  refine BitVec.eq_of_getLsbD_eq fun i hi => ?_
  rw [getLsbD_bytes]
  split_ifs <;> exact getLsbD_field w (by omega) (by omega)

theorem decode_wordBytes (w : Word32) : decode (wordBytes w) = decodeWord w :=
  congrArg decodeWord (bytes_of_word w)

/-- Each of four bytes is a field of the word they make. -/
theorem wordBytes_append (b3 b2 b1 b0 : Byte) : wordBytes (b3 ++ b2 ++ b1 ++ b0) = [b3, b2, b1, b0] := by
  simp only [wordBytes, List.cons.injEq, and_true]
  refine ⟨?_, ?_, ?_, ?_⟩ <;> refine BitVec.eq_of_getLsbD_eq fun i hi => ?_
  all_goals
    rw [BitVec.getLsbD_extractLsb', getLsbD_bytes]
    grind

theorem encode_of_word {i : Instr} (h : i.code? = none) : encode i = wordBytes i.word := by
  rw [encode, h]

/-- Any other number of bytes than one and four is no instruction. -/
theorem decode_of_length {bs : List Byte} (h1 : bs.length ≠ 1) (h4 : bs.length ≠ 4) :
    decode bs = .error .badLength := by
  match bs with
  | [_] => exact absurd rfl h1
  | [_, _, _, _] => exact absurd rfl h4
  | [] | [_, _] | [_, _, _] | _ :: _ :: _ :: _ :: _ :: _ => rfl

/-- What is read from bytes is read from the code or the word they lay out. -/
theorem decode_ok {bs : List Byte} {i : Instr} (h : decode bs = .ok i) :
    (∃ c, bs = [c.setWidth 8] ∧ decodeCode c = i) ∨ ∃ w, bs = wordBytes w ∧ decodeWord w = .ok i := by
  match bs with
  | [b] =>
    obtain hlt | hge := lt_or_ge b.toNat 16
    · obtain ⟨c, rfl⟩ := exists_code_of_lt hlt
      cases (decode_codeByte c).symm.trans h
      exact .inl ⟨c, rfl, rfl⟩
    · cases (decode_byte_of_ge hge).symm.trans h
  | [b3, b2, b1, b0] => exact .inr ⟨_, (wordBytes_append b3 b2 b1 b0).symm, h⟩
  | [] | [_, _] | [_, _, _] | _ :: _ :: _ :: _ :: _ :: _ => cases h

/-! ### The round trip -/

/-- Settles O5: an instruction with a code goes through one byte, every other through its word. -/
theorem decodeOfEncodeIsInstruction : Obligations.DecodeOfEncodeIsInstruction := by
  unfold Obligations.DecodeOfEncodeIsInstruction
  intro i hwf
  cases hc : i.code? with
  | some c => rw [encode_of_code? hc, decode_codeByte, (decodeCode_eq_iff c i).mpr hc]
  | none => rw [encode_of_word hc, decode_wordBytes, decodeWord_word hc hwf]

/-- Settles O6: what was read lays out a code or a word, and is the one instruction that has it. -/
theorem encodeOfDecodeIsBytes : Obligations.EncodeOfDecodeIsBytes := by
  unfold Obligations.EncodeOfDecodeIsBytes
  intro bs i h
  obtain ⟨c, rfl, hi⟩ | ⟨w, rfl, hw⟩ := decode_ok h
  · have hc := (decodeCode_eq_iff c i).mp hi
    exact ⟨wellFormed_of_code? hc, encode_of_code? hc⟩
  · obtain ⟨hc, hwf, rfl⟩ := decodeWord_ok hw
    exact ⟨hwf, encode_of_word hc⟩

/-- Settles O7: the decoder is run on each word. -/
theorem specWordsDecode : Obligations.SpecWordsDecode := by
  unfold Obligations.SpecWordsDecode
  decide

/-! ### Running what was decoded (30_encoding.md R118; log 1) -/

theorem fetchRun_of_ok {bs : List Byte} {i : Instr} (h : decode bs = .ok i) (s : State) :
    fetchRun bs s = exec i s := by
  rw [fetchRun, h]

theorem fetchRun_of_error {bs : List Byte} {e : DecodeError} (h : decode bs = .error e) (s : State) :
    fetchRun bs s = .refused (.notAnInstruction bs) := by
  rw [fetchRun, h]

theorem decode_tableBytes {nbits n : Nat} {i : Instr} (h : decodeTableWord nbits n = some i) :
    decode (tableBytes nbits n) = .ok i := by
  rw [decodeTableWord] at h
  split at h
  · next hd => cases h; exact hd
  · cases h

/-- Settles O8: the move is `fetchRun` of its bytes, which runs what they decode to. -/
theorem stepRunsDecodedInstruction : Obligations.StepRunsDecodedInstruction := by
  unfold Obligations.StepRunsDecodedInstruction
  constructor
  · intro s bs ms i hprog hd
    exact (step_cons hprog).trans (fetchRun_of_ok hd _)
  · intro s nbits n i h
    exact fetchRun_of_ok (decode_tableBytes h) s

/-- Settles O9: one lemma for each number of bytes; what does not decode is refused by `fetchRun`. -/
theorem undecodableBytesAreRefused : Obligations.UndecodableBytesAreRefused := by
  unfold Obligations.UndecodableBytesAreRefused
  refine ⟨fun b => ?_, fun b3 b2 b1 b0 => ?_, fun bs => decode_of_length,
    fun s bs e h => fetchRun_of_error h s⟩
  · obtain hlt | hge := lt_or_ge b.toNat 16
    · obtain ⟨c, rfl⟩ := exists_code_of_lt hlt
      exact iff_of_false (by simp [decode_codeByte]) (Nat.not_le.mpr hlt)
    · exact iff_of_true ⟨_, decode_byte_of_ge hge⟩ hge
  · have h31 : BitVec.getLsbD (w := 32) (b3 ++ b2 ++ b1 ++ b0) 31 = b3.getLsbD 7 := getLsbD_bytes ..
    have h11 : BitVec.getLsbD (w := 32) (b3 ++ b2 ++ b1 ++ b0) 11 = b1.getLsbD 3 := getLsbD_bytes ..
    rw [← h31, ← h11]
    exact decodeWord_error_iff

end Sys2Proof
end

section
/-! PROOFS. The data word a codeword is built from, and the obligations about words that two rows share
(30_encoding.md R96, R98, R114, R115). -/

namespace Sys2Proof.Machine

/-! ### A codeword determines its data word (30_encoding.md R96) -/

/-- The data word stands in the upper 21 bits of its codeword. -/
theorem extractLsb'_codeword (d : Data) : (codeword d).extractLsb' 11 21 = d := by
  refine BitVec.eq_of_getLsbD_eq fun i hi => ?_
  have hparity : (parity 31 (bchWord d)).getLsbD (11 + i) = false := BitVec.getLsbD_of_ge _ _ (by omega)
  simp [codeword, hi, hparity, show 11 + i < 32 by omega]

theorem codeword_inj {d d' : Data} : codeword d = codeword d' ↔ d = d' :=
  ⟨fun h => by rw [← extractLsb'_codeword d, h, extractLsb'_codeword], congrArg codeword⟩

/-! ### The two data words, bit by bit and as numbers (41_codeword_builder.md R140, R141) -/

theorem getLsbD_addressData (ric : BitVec 21) (func : BitVec 2) {i : Nat} (hi : i < 21) :
    (addressData ric func).getLsbD i = if i < 2 then func.getLsbD i else ric.getLsbD (i + 1) := by
  split_ifs with h
  · simp [addressData, hi, show i ≤ 1 by omega]
  · have hfunc : func.getLsbD i = false := BitVec.getLsbD_of_ge _ _ (by omega)
    simp [addressData, hi, hfunc, show ¬ i ≤ 1 by omega, show 3 + (i - 2) = i + 1 by omega]

theorem getLsbD_messageData (pay : Group) {i : Nat} (hi : i < 21) :
    (messageData pay).getLsbD i = if i = 0 then true else pay.getLsbD (i - 1) := by
  split_ifs with h
  · simp [messageData, h]
  · simp [messageData, hi, h]

/-- The two fields of the data word of an address do not overlap. -/
theorem toNat_addressData (ric : BitVec 21) (func : BitVec 2) :
    (addressData ric func).toNat = ric.toNat / 8 * 4 + func.toNat := by
  have hfit : ric.toNat >>> 3 <<< 2 < 2 ^ 21 := by
    rw [Nat.shiftLeft_eq, Nat.shiftRight_eq_div_pow]
    omega
  rw [addressData, BitVec.toNat_or, BitVec.toNat_shiftLeft, BitVec.toNat_ushiftRight,
    BitVec.toNat_setWidth_of_le (by decide), Nat.mod_eq_of_lt hfit,
    ← Nat.shiftLeft_add_eq_or_of_lt func.isLt, Nat.shiftLeft_eq, Nat.shiftRight_eq_div_pow]

theorem addressCodeword_eq_codeword_iff (ric : BitVec 21) (func : BitVec 2) (d : Data) :
    addressCodeword ric func = codeword d
      ↔ ric.toNat / 8 = d.toNat / 4 ∧ func.toNat = d.toNat % 4 := by
  rw [addressCodeword, codeword_inj, ← BitVec.toNat_inj, toNat_addressData]
  omega

/-- The data word of a message codeword is odd: its lowest bit is the message flag. -/
theorem messageCodeword_ne_codeword (pay : Group) {d : Data} (hd : d.getLsbD 0 = false) :
    messageCodeword pay ≠ codeword d := by
  rw [messageCodeword, Ne, codeword_inj]
  rintro rfl
  rw [getLsbD_messageData pay (by decide)] at hd
  cases hd

/-! ### The constants (30_encoding.md R98) -/

theorem codeword_idleData : codeword 0x0F5138#21 = idleWord := by decide +kernel
theorem codeword_syncData : codeword 0x0F9A42#21 = syncWord := by decide +kernel

/-- Settles O13: the two divisions are carried out. -/
theorem constantsAreCodewords : Obligations.ConstantsAreCodewords := by
  unfold Obligations.ConstantsAreCodewords
  exact ⟨rfl, rfl, codeword_idleData, by decide +kernel, by decide +kernel,
    codeword_syncData, by decide +kernel, by decide +kernel⟩

/-- Settles O14: the data words of the constants are even, and as addresses have one `RIC >> 3` and one
`FUNC` each. -/
theorem forgedConstantsAreSixteenAddresses : Obligations.ForgedConstantsAreSixteenAddresses := by
  unfold Obligations.ForgedConstantsAreSixteenAddresses
  rw [← codeword_idleData, ← codeword_syncData]
  refine ⟨fun ric func => ⟨?_, ?_⟩, fun pay => ⟨?_, ?_⟩⟩
  · rw [addressCodeword_eq_codeword_iff]
    bv_omega
  · rw [addressCodeword_eq_codeword_iff]
    bv_omega
  · exact messageCodeword_ne_codeword pay (by decide)
  · exact messageCodeword_ne_codeword pay (by decide)

/-- Settles O15: the data words agree at bit 0 (the flag), bit 1, bits 19:2 and bit 20, which no address
sets. -/
theorem addressAndMessageCanBeSameWord : Obligations.AddressAndMessageCanBeSameWord := by
  unfold Obligations.AddressAndMessageCanBeSameWord
  refine ⟨fun ric func pay => ?_, by decide +kernel, by decide +kernel⟩
  have hric : ric.getLsbD 21 = false := BitVec.getLsbD_of_ge ric 21 le_rfl
  rw [addressCodeword, messageCodeword, codeword_inj]
  constructor
  · intro h
    have hbit (i : Nat) (hi : i < 21) :
        (if i < 2 then func.getLsbD i else ric.getLsbD (i + 1))
          = if i = 0 then true else pay.getLsbD (i - 1) := by
      rw [← getLsbD_addressData ric func hi, h, getLsbD_messageData pay hi]
    refine ⟨(hbit 20 (by decide)).symm.trans hric, hbit 0 (by decide), (hbit 1 (by decide)).symm,
      fun k hk => ?_⟩
    simpa using (hbit (k + 2) (by omega)).symm
  · rintro ⟨htop, hflag, hlow, hmid⟩
    refine BitVec.eq_of_getLsbD_eq fun i hi => ?_
    rw [getLsbD_addressData ric func hi, getLsbD_messageData pay hi]
    match i with
    | 0 => exact hflag
    | 1 => exact hlow.symm
    | k + 2 =>
      obtain hk | rfl : k < 18 ∨ k = 18 := by omega
      · simpa using (hmid k hk).symm
      · exact hric.trans htop.symm

end Sys2Proof.Machine
end

section
/-! PROOFS. The numeric code table, for every allowed choice of it (30_encoding.md R106, R108). -/

namespace Sys2Proof.Machine

/-! ### The five codes of the symbols -/

/-- The symbols of the numeric alphabet that are no digits, with their codes under a table. -/
def NumTable.symbols (t : NumTable) : List (Byte × BitVec 4) :=
  [(0x55, t.u), (0x20, t.space), (0x2D, t.hyphen), (0x5D, t.close), (0x5B, t.opening)]

/-- Drawing element `k` out of a list keeps all elements. -/
theorem draw_perm {l : List (BitVec 4)} {k n : Nat} (hl : l.length = n + 1) (hk : k < n + 1) :
    (l.getD k 0 :: l.eraseIdx k).Perm l ∧ (l.eraseIdx k).length = n := by
  rw [List.getD_eq_getElem l 0 (by omega), List.length_eraseIdx_of_lt (by omega)]
  exact ⟨List.getElem_cons_eraseIdx_perm (by omega), by omega⟩

/-- The codes of a choice, with the one code left over, are the six codes there are. -/
theorem exists_symbols_ofPick_perm (n : Nat) :
    ∃ rest, ((NumTable.ofPick n).symbols.map Prod.snd ++ rest).Perm [0xA, 0xB, 0xC, 0xD, 0xE, 0xF] := by
  obtain ⟨h0, l1⟩ := draw_perm (l := [0xA, 0xB, 0xC, 0xD, 0xE, 0xF]) (n := 5) rfl
    (Nat.mod_lt n (by decide))
  obtain ⟨h1, l2⟩ := draw_perm l1 (Nat.mod_lt (n / 6) (by decide))
  obtain ⟨h2, l3⟩ := draw_perm l2 (Nat.mod_lt (n / 30) (by decide))
  obtain ⟨h3, l4⟩ := draw_perm l3 (Nat.mod_lt (n / 120) (by decide))
  obtain ⟨h4, -⟩ := draw_perm l4 (Nat.mod_lt (n / 360) (by decide))
  exact ⟨_, ((((h4.cons _).trans h3).cons _ |>.trans h2).cons _ |>.trans h1).cons _ |>.trans h0⟩

/-- The codes of the symbols are distinct, whichever they are. -/
theorem nodup_symbols_ofPick (n : Nat) : ((NumTable.ofPick n).symbols.map Prod.snd).Nodup := by
  obtain ⟨rest, hperm⟩ := exists_symbols_ofPick_perm n
  exact (hperm.nodup_iff.mpr (by decide)).of_append_left

theorem le_of_mem_symbols_ofPick {n : Nat} {p : Byte × BitVec 4} (hp : p ∈ (NumTable.ofPick n).symbols) :
    0xA#4 ≤ p.2 := by
  obtain ⟨rest, hperm⟩ := exists_symbols_ofPick_perm n
  have hsix : ∀ v ∈ ([0xA, 0xB, 0xC, 0xD, 0xE, 0xF] : List (BitVec 4)), 0xA#4 ≤ v := by decide
  exact hsix _ (hperm.subset (List.mem_append_left rest (List.mem_map_of_mem hp)))

/-! ### Characters and their codes -/

theorem isSome_numCode? (t : NumTable) (c : Byte) : (numCode? t c).isSome = isNumeric c := by
  simp only [numCode?, isNumeric]
  split_ifs <;> simp_all

theorem numCode?_digit (t : NumTable) {n : Nat} (hn : n < 10) :
    numCode? t (BitVec.ofNat 8 (0x30 + n)) = some (BitVec.ofNat 4 n) := by
  interval_cases n <;> rfl

/-- A character with a code is the digit of that value, or a symbol with the table's code. -/
theorem numCode?_eq_some {t : NumTable} {c : Byte} {v : BitVec 4} (h : numCode? t c = some v) :
    (c.toNat = 0x30 + v.toNat ∧ v.toNat < 10) ∨ (c, v) ∈ t.symbols := by
  rw [numCode?] at h
  split_ifs at h with hdigit <;> cases h
  · left
    bv_omega
  all_goals simp [NumTable.symbols, *]

/-- The code of a character of the numeric alphabet is no other's. -/
theorem numCode?_inj {c c' : Byte} {v : BitVec 4} (h : numCode? numTable c = some v)
    (h' : numCode? numTable c' = some v) : c = c' := by
  obtain ⟨hc, hv⟩ | hmem := numCode?_eq_some h <;> obtain ⟨hc', hv'⟩ | hmem' := numCode?_eq_some h'
  · exact BitVec.eq_of_toNat_eq (hc.trans hc'.symm)
  · exact absurd (le_of_mem_symbols_ofPick hmem') (by bv_omega)
  · exact absurd (le_of_mem_symbols_ofPick hmem) (by bv_omega)
  · exact congrArg Prod.fst (List.inj_on_of_nodup_map (nodup_symbols_ofPick _) hmem hmem' rfl)

/-- Settles O19: digits have their values below ten, symbols distinct codes from ten on. -/
theorem numericCodesAreDistinct : Obligations.NumericCodesAreDistinct := by
  unfold Obligations.NumericCodesAreDistinct
  refine ⟨isSome_numCode? numTable, fun n hn => numCode?_digit numTable hn, fun c c' v h h' =>
    ⟨numCode?_inj h h', fun hc => ?_⟩⟩
  obtain ⟨hdigit, hv⟩ | hmem := numCode?_eq_some h
  · bv_omega
  · exact le_of_mem_symbols_ofPick hmem

end Sys2Proof.Machine
end

section
/-! PROOFS. The text move and its obligation (30_encoding.md R118). -/

namespace Sys2Proof.Machine

variable {s : State} {cs : List Byte}

theorem hostTxt_of_fits (hb : s.seq ≠ .busy) (hfit : cs.length ≤ Config.maxChars) :
    hostTxt cs s = .next { s with
      txt := Mem.writeBlock s.txt 0 cs
      len := BitVec.ofNat 32 cs.length } := by
  rw [hostTxt, hostAccess_of_ne_busy _ hb, if_pos hfit]

/-- The elements of a memory whose first block was written: the block, then what was there before. -/
theorem Mem.read_writeBlock_zero {α : Type} (free : Nat → α) (m : Mem α) (vs : List α) (i : Nat) :
    Mem.read free (Mem.writeBlock m 0 vs) i = vs[i]?.getD (Mem.read free m i) := by
  rw [Mem.read_writeBlock]
  obtain hlt | hge := lt_or_ge i vs.length
  · simp [hlt]
  · simp [hge]

/-- Settles O56: the text is read back element by element from the block `TXT` writes. -/
theorem textMoveFillsTextMemory : Obligations.TextMoveFillsTextMemory := by
  unfold Obligations.TextMoveFillsTextMemory
  intro s cs hb hfit
  refine ⟨_, hostTxt_of_fits hb hfit, rfl, ?_, fun i hi => ?_⟩
  · have hlen : (BitVec.ofNat 32 cs.length).toNat = cs.length := by
      have : Config.maxChars < 2 ^ 32 := by decide
      rw [BitVec.toNat_ofNat, Nat.mod_eq_of_lt (by omega)]
    refine List.ext_getElem (by rw [length_text, hlen]) fun i _ hi => ?_
    simp [State.text, State.txtAt, Mem.read_writeBlock_zero, hi]
  · simp [State.txtAt, Mem.read_writeBlock_zero, hi]

end Sys2Proof.Machine
end

section
/-! PROOFS. The parity is linear, so the table of the single-bit parities fixes it (40_bch_parity.md R132);
and the completion of `BCH` (R134). -/

namespace Sys2Proof.Machine

/-! ### A data word, one bit at a time -/

/-- The `k + 1` low bits of a data word are its `k` low bits and bit `k`. -/
theorem setWidth_setWidth_succ_xor (d : Data) (k : Nat) :
    (d.setWidth (k + 1)).setWidth 21
      = (d.setWidth k).setWidth 21 ^^^ (if d.getLsbD k then 1#21 <<< k else 0#21) := by
  refine BitVec.eq_of_getLsbD_eq fun i hi => ?_
  obtain hlt | rfl | hgt := lt_trichotomy i k
  · cases d.getLsbD k <;> simp [hi, hlt, Nat.lt_succ_of_lt hlt]
  · cases hd : d[i] <;> simp [hi, hd]
  · have hge : ¬ i < k + 1 := by omega
    have hsub : i - k ≠ 0 := by omega
    cases d.getLsbD k <;> simp [hi, hge, hgt.not_gt, hsub]

/-! ### The parity -/

theorem bchParity_xor (a b : Data) : bchParity (a ^^^ b) = bchParity a ^^^ bchParity b := by
  simp only [bchParity, BitVec.setWidth_xor, BitVec.shiftLeft_xor_distrib, polymod_xor]

@[simp] theorem bchParity_zero : bchParity 0#21 = 0#10 := polymod_zero

/-- The parity of `x ^ k` is the table's entry `k`: twenty-one divisions, carried out. -/
theorem bchParity_one_shiftLeft :
    ∀ k, k < 21 → bchParity (1#21 <<< k) = singleBitParities.getD k 0 := by decide +kernel

/-- The exclusive OR of the entries below `k` is the parity of the `k` low bits. -/
theorem tableParityLow_eq_bchParity (d : Data) {k : Nat} (hk : k ≤ 21) :
    tableParityLow d k = bchParity ((d.setWidth k).setWidth 21) := by
  induction k with
  | zero => simp [tableParityLow, BitVec.eq_nil (d.setWidth 0)]
  | succ k ih =>
    rw [tableParityLow, ih (by omega), setWidth_setWidth_succ_xor, bchParity_xor]
    cases d.getLsbD k with
    | false => simp
    | true => rw [if_pos rfl, if_pos rfl, bchParity_one_shiftLeft k hk]

/-- The exclusive OR of the entries for the bits of `d` is the parity of `d`. -/
theorem bchParity_eq_tableParityLow (d : Data) : bchParity d = tableParityLow d 21 := by
  rw [tableParityLow_eq_bchParity d le_rfl, BitVec.setWidth_eq, BitVec.setWidth_eq]

/-- Settles O11: division is linear, and a data word is the exclusive OR of its bits. -/
theorem bchParityIsLinear : Obligations.BchParityIsLinear := by
  unfold Obligations.BchParityIsLinear
  exact ⟨bchParity_xor, bchParity_zero, bchParity_one_shiftLeft, bchParity_eq_tableParityLow⟩

/-! ### The completion of `BCH` -/

theorem exec_bch_idle {s : State} (hs : s.seq = .idle) :
    exec .bch s = .next { s with p := bchParity s.d } := by
  rw [exec, execBch, runOp_idle _ _ hs]

/-- Settles O16: the operation runs in `IDLE`; the parities of the corner values by the table. -/
theorem bchCompletes : Obligations.BchCompletes := by
  unfold Obligations.BchCompletes
  refine ⟨fun s hs => exec_bch_idle hs, bchParity_zero, ?_, ?_⟩
  · rw [bchParity_eq_tableParityLow]
    decide
  · rw [bchParity_eq_tableParityLow]
    decide

end Sys2Proof.Machine
end

section
/-! PROOFS. A codeword is the BCH word of its data word and one bit of even parity
(41_codeword_builder.md R142); and the completions of `ADDRCW` and `MSGCW` (R140, R141). -/

namespace Sys2Proof.Machine

/-! ### Even parity -/

/-- The 1 bits of a value are those above its lowest bit, and that bit. -/
theorem popcountLow_succ_eq_add_bit_zero {n k : Nat} (v : BitVec (n + 1)) (hk : k ≤ n) :
    popcountLow (n + 1) v (k + 1) = popcountLow n (v.extractLsb' 1 n) k + (v.getLsbD 0).toNat := by
  induction k with
  | zero => rfl
  | succ k ih =>
    have hbit : (v.extractLsb' 1 n).getLsbD k = v.getLsbD (k + 1) := by
      simp [show k < n from hk, Nat.add_comm]
    rw [popcountLow, ih (by omega), popcountLow, hbit, Nat.add_right_comm]

theorem popcount_succ {n : Nat} (v : BitVec (n + 1)) :
    popcount (n + 1) v = popcount n (v.extractLsb' 1 n) + (v.getLsbD 0).toNat :=
  popcountLow_succ_eq_add_bit_zero v le_rfl

theorem toNat_getLsbD_parity {n : Nat} (v : BitVec n) :
    ((parity n v).getLsbD 0).toNat = popcount n v % 2 := by
  obtain h | h := Nat.mod_two_eq_zero_or_one (popcount n v) <;> simp [parity, h]

/-! ### The BCH word -/

theorem getLsbD_bchWord (d : Data) {i : Nat} (hi : i < 31) :
    (bchWord d).getLsbD i = if i < 10 then (bchParity d).getLsbD i else d.getLsbD (i - 10) := by
  split_ifs with hlt
  · simp [bchWord, hi, hlt]
  · have hcheck : (bchParity d).getLsbD i = false := BitVec.getLsbD_of_ge _ _ (by omega)
    simp [bchWord, hi, hlt, hcheck]

/-- The check bits stand below the data, so laying them in is adding them over GF(2). -/
theorem bchWord_eq_xor (d : Data) :
    bchWord d = d.setWidth 31 <<< 10 ^^^ (bchParity d).setWidth 31 := by
  refine BitVec.eq_of_getLsbD_eq fun i hi => ?_
  rw [getLsbD_bchWord d hi]
  split_ifs with hlt
  · simp [hi, hlt]
  · have hcheck : (bchParity d).getLsbD i = false := BitVec.getLsbD_of_ge _ _ (by omega)
    simp [hi, hlt, hcheck]

/-- The generator divides the BCH word: the check bits are what the data leave (30_encoding.md R96). -/
theorem polymod_bchWord (d : Data) : polymod (bchWord d) = 0#10 := by
  rw [bchWord_eq_xor, polymod_xor, polymod_setWidth, ← bchParity, BitVec.xor_self]

/-! ### The fields of a codeword (30_encoding.md R96) -/

/-- The BCH word stands above the parity bit. -/
theorem getLsbD_codeword_one_add (d : Data) {i : Nat} (hi : i < 31) :
    (codeword d).getLsbD (1 + i) = (bchWord d).getLsbD i := by
  rw [getLsbD_bchWord d hi]
  split_ifs with hlt
  · simp [codeword, show 1 + i < 32 by omega, show 1 + i < 11 by omega]
  · have hcheck : (bchParity d).getLsbD i = false := BitVec.getLsbD_of_ge _ _ (by omega)
    simp [codeword, hcheck, show 1 + i < 32 by omega, show ¬ 1 + i < 11 by omega,
      show 1 + i - 11 = i - 10 by omega]

theorem extractLsb'_codeword_bchWord (d : Data) : (codeword d).extractLsb' 1 31 = bchWord d := by
  refine BitVec.eq_of_getLsbD_eq fun i hi => ?_
  rw [BitVec.getLsbD_extractLsb', getLsbD_codeword_one_add d hi, decide_eq_true hi, Bool.true_and]

theorem getLsbD_codeword_zero (d : Data) :
    (codeword d).getLsbD 0 = (parity 31 (bchWord d)).getLsbD 0 := by
  simp [codeword]

theorem getLsbD_codeword_data (d : Data) {i : Nat} (hi : i < 21) :
    (codeword d).getLsbD (11 + i) = d.getLsbD i := by
  rw [show 11 + i = 1 + (10 + i) by omega, getLsbD_codeword_one_add d (by omega),
    getLsbD_bchWord d (by omega), if_neg (by omega), Nat.add_sub_cancel_left]

/-- A field of the data word stands eleven bits higher in the codeword. -/
theorem extractLsb'_codeword_data (d : Data) {start len : Nat} (h : start + len ≤ 21) :
    (codeword d).extractLsb' (11 + start) len = d.extractLsb' start len := by
  refine BitVec.eq_of_getLsbD_eq fun i hi => ?_
  rw [BitVec.getLsbD_extractLsb', BitVec.getLsbD_extractLsb', Nat.add_assoc,
    getLsbD_codeword_data d (by omega)]

/-- The check field holds the parity of the data field. -/
theorem extractLsb'_codeword_check (d : Data) :
    (codeword d).extractLsb' 1 10 = bchParity ((codeword d).extractLsb' 11 21) := by
  rw [extractLsb'_codeword]
  refine BitVec.eq_of_getLsbD_eq fun i hi => ?_
  rw [BitVec.getLsbD_extractLsb', getLsbD_codeword_one_add d (by omega),
    getLsbD_bchWord d (by omega), if_pos hi, decide_eq_true hi, Bool.true_and]

/-- The lowest bit makes the number of 1 bits even. -/
theorem popcount_codeword_mod_two (d : Data) : popcount 32 (codeword d) % 2 = 0 := by
  rw [popcount_succ, extractLsb'_codeword_bchWord, getLsbD_codeword_zero, toNat_getLsbD_parity]
  omega

/-! ### The fields of the two data words, and which data words there are -/

theorem getLsbD_addressData_top (ric : BitVec 21) (func : BitVec 2) :
    (addressData ric func).getLsbD 20 = false :=
  (getLsbD_addressData ric func (by decide)).trans (BitVec.getLsbD_of_ge ric 21 le_rfl)

theorem extractLsb'_addressData_ric (ric : BitVec 21) (func : BitVec 2) :
    (addressData ric func).extractLsb' 2 18 = ric.extractLsb' 3 18 := by
  refine BitVec.eq_of_getLsbD_eq fun i hi => ?_
  rw [BitVec.getLsbD_extractLsb', getLsbD_addressData ric func (by omega), if_neg (by omega),
    BitVec.getLsbD_extractLsb', show 2 + i + 1 = 3 + i by omega]

theorem extractLsb'_addressData_func (ric : BitVec 21) (func : BitVec 2) :
    (addressData ric func).extractLsb' 0 2 = func := by
  refine BitVec.eq_of_getLsbD_eq fun i hi => ?_
  rw [BitVec.getLsbD_extractLsb', Nat.zero_add, getLsbD_addressData ric func (by omega), if_pos hi,
    decide_eq_true hi, Bool.true_and]

theorem getLsbD_messageData_flag (pay : Group) : (messageData pay).getLsbD 0 = true :=
  getLsbD_messageData pay (by decide)

theorem extractLsb'_messageData_pay (pay : Group) : (messageData pay).extractLsb' 1 20 = pay := by
  refine BitVec.eq_of_getLsbD_eq fun i hi => ?_
  rw [BitVec.getLsbD_extractLsb', getLsbD_messageData pay (by omega), if_neg (by omega),
    Nat.add_sub_cancel_left, decide_eq_true hi, Bool.true_and]

/-- The data words of address codewords are those whose top bit is 0. -/
theorem exists_addressData_iff (d : Data) :
    (∃ ric func, addressData ric func = d) ↔ d.getLsbD 20 = false := by
  constructor
  · rintro ⟨ric, func, rfl⟩
    exact getLsbD_addressData_top ric func
  · intro htop
    refine ⟨d <<< 1, d.setWidth 2, BitVec.eq_of_getLsbD_eq fun i hi => ?_⟩
    rw [getLsbD_addressData _ _ hi]
    split_ifs with hlt
    · simp [hlt]
    · obtain rfl | hne := eq_or_ne i 20
      · exact (BitVec.getLsbD_of_ge _ 21 le_rfl).trans htop.symm
      · simp [hi, show i + 1 < 21 by omega]

/-- The data words of message codewords are those whose lowest bit, the flag, is 1. -/
theorem exists_messageData_iff (d : Data) : (∃ pay, messageData pay = d) ↔ d.getLsbD 0 = true := by
  constructor
  · rintro ⟨pay, rfl⟩
    exact getLsbD_messageData_flag pay
  · intro hflag
    refine ⟨d.extractLsb' 1 20, BitVec.eq_of_getLsbD_eq fun i hi => ?_⟩
    rw [getLsbD_messageData _ hi]
    split_ifs with h0
    · rw [h0, hflag]
    · simp [show i - 1 < 20 by omega, show 1 + (i - 1) = i by omega]

/-- Settles O12: a codeword is its BCH word, which the generator divides, and the parity bit. -/
theorem codewordSatisfiesCheckEquation : Obligations.CodewordSatisfiesCheckEquation := by
  unfold Obligations.CodewordSatisfiesCheckEquation
  refine ⟨fun d => ⟨extractLsb'_codeword d, ?_, popcount_codeword_mod_two d⟩,
    exists_addressData_iff, exists_messageData_iff⟩
  rw [extractLsb'_codeword_bchWord, polymod_bchWord]

/-! ### The completions of `ADDRCW` and `MSGCW` -/

variable {s : State}

theorem exec_addrcw_idle (hs : s.seq = .idle) :
    exec .addrcw s = .next { s with cw := codeword (addressData s.ric s.func) } := by
  rw [exec, execAddrcw, runOp_idle _ _ hs, addressCodeword]

theorem exec_msgcw_idle (hs : s.seq = .idle) :
    exec .msgcw s = .next { s with cw := codeword (messageData s.pay) } := by
  rw [exec, execMsgcw, runOp_idle _ _ hs, messageCodeword]

/-- Settles O17: the fields of the address's data word, eleven bits higher, and those every codeword has. -/
theorem addrcwCompletes : Obligations.AddrcwCompletes := by
  unfold Obligations.AddrcwCompletes
  intro s hs
  refine ⟨_, exec_addrcw_idle hs, rfl, ?_, ?_, ?_, extractLsb'_codeword_check _,
    popcount_codeword_mod_two _⟩
  · exact (getLsbD_codeword_data _ (i := 20) (by decide)).trans (getLsbD_addressData_top ..)
  · exact (extractLsb'_codeword_data _ (start := 2) (by decide)).trans
      (extractLsb'_addressData_ric ..)
  · exact (extractLsb'_codeword_data _ (start := 0) (by decide)).trans
      (extractLsb'_addressData_func ..)

/-- Settles O18: the fields of the message's data word, eleven bits higher, and those every codeword has. -/
theorem msgcwCompletes : Obligations.MsgcwCompletes := by
  unfold Obligations.MsgcwCompletes
  intro s hs
  refine ⟨_, exec_msgcw_idle hs, rfl, ?_, ?_, extractLsb'_codeword_check _,
    popcount_codeword_mod_two _⟩
  · exact (extractLsb'_codeword_data _ (start := 1) (by decide)).trans
      (extractLsb'_messageData_pay _)
  · exact (getLsbD_codeword_data _ (i := 0) (by decide)).trans (getLsbD_messageData_flag _)

end Sys2Proof.Machine
end

section
/-! PROOFS. The message bit-packer: the groups of a padded stream are the stream again, bit by bit, hence the
completions of `PACKA` and `PACKN` (42_bit_packer.md R160, R161) and the inverse of packing (R165). -/

namespace Sys2Proof.Machine

/-! ### Words and their bits (00_scope.md R12) -/

/-- `bits_msb` undoes `word_msb`. -/
theorem bitsMsb_wordMsb {n : Nat} {bs : List Bit} (hl : bs.length = n) : bitsMsb n (wordMsb n bs) = bs := by
  refine List.ext_getElem (by rw [length_bitsMsb, hl]) fun k _ hk => bit_ext ?_
  rw [← getLsbD_wordMsb hl (hl ▸ hk)]
  simp [bitsMsb]

theorem reverse_bitsLsb (n : Nat) (v : BitVec n) : (bitsLsb n v).reverse = bitsMsb n v := by
  refine List.ext_getElem (by simp) fun k _ _ => ?_
  simp [bitsLsb, bitsMsb]

theorem numMsb_bitsMsb (n : Nat) (v : BitVec n) : numMsb (bitsMsb n v) = v.toNat := by
  have hlt : numMsb (bitsMsb n v) < 2 ^ n := by simpa using numMsb_lt (bitsMsb n v)
  have hword : (wordMsb n (bitsMsb n v)).toNat = v.toNat := by rw [wordMsb_bitsMsb]
  rwa [wordMsb, BitVec.toNat_ofNat, Nat.mod_eq_of_lt hlt] at hword

/-! ### The groups of a stream (42_bit_packer.md R157, R158) -/

theorem flatMap_bitsMsb_firstGroups {k : Nat} {bs : List Bit} (h : bs.length = 20 * k) :
    (firstGroups k bs).flatMap (bitsMsb 20) = bs := by
  induction k generalizing bs with
  | zero => exact (List.eq_nil_of_length_eq_zero h).symm
  | succ k ih =>
    have htake : (bs.take 20).length = 20 := by rw [List.length_take]; omega
    have hdrop : (bs.drop 20).length = 20 * k := by rw [List.length_drop]; omega
    rw [firstGroups, List.flatMap_cons, bitsMsb_wordMsb htake, ih hdrop, List.take_append_drop]

/-- The bits of the groups of a padded stream are the padded stream. -/
theorem flatMap_bitsMsb_groups_pad (bs : List Bit) : (groups (pad bs)).flatMap (bitsMsb 20) = pad bs :=
  flatMap_bitsMsb_firstGroups (by rw [length_pad]; omega)

/-- Bit `j` of a stream that 1 bits follow without end. -/
def paddedBit (bs : List Bit) (j : Nat) : Bool := (bs[j]?.getD 1#1).getLsbD 0

/-- `pad` appends 1 bits and nothing else. -/
theorem getLsbD_of_getElem?_pad {bs : List Bit} {j : Nat} {b : Bit} (h : (pad bs)[j]? = some b) :
    b.getLsbD 0 = paddedBit bs j := by
  rw [pad, List.getElem?_append] at h
  split_ifs at h with hlt
  · rw [paddedBit, h, Option.getD_some]
  · obtain rfl := List.eq_of_mem_replicate (List.mem_of_getElem? h)
    rw [paddedBit, List.getElem?_eq_none (by omega), Option.getD_none]

/-- Bit `19 - j` of group `k` is bit `20 k + j` of the padded stream. -/
theorem getLsbD_of_getElem?_groups_pad {bs : List Bit} {k j : Nat} {g : Group}
    (hg : (groups (pad bs))[k]? = some g) (hj : j < 20) :
    g.getLsbD (19 - j) = paddedBit bs (20 * k + j) := by
  have hdiv : (20 * k + j) / 20 = k := by omega
  have hmod : (20 * k + j) % 20 = j := by omega
  have hbit : (pad bs)[20 * k + j]? = some (g.extractLsb' (19 - j) 1) := by
    rw [← flatMap_bitsMsb_groups_pad, getElem?_flatMap_const (by decide) _ (length_bitsMsb 20), hdiv,
      hmod, hg, Option.bind_some, getElem?_bitsMsb 20 g hj]
  simpa using getLsbD_of_getElem?_pad hbit

/-! ### The bits of the two streams (42_bit_packer.md R155, R156) -/

theorem streamAlpha_eq_flatMap (text : List Byte) :
    streamAlpha text = text.flatMap fun c => bitsLsb 7 (c.setWidth 7) := rfl

theorem streamNum_eq_flatMap (t : NumTable) (text : List Byte) :
    streamNum t text = text.flatMap fun c => bitsLsb 4 ((numCode? t c).getD 0) := rfl

/-- Bit `j` of a stream of `w` bits a character belongs to character `j / w`. -/
theorem paddedBit_flatMap_bitsLsb {w : Nat} (hw : 0 < w) (code : Byte → BitVec w) (s : State) (j : Nat) :
    paddedBit (s.text.flatMap fun c => bitsLsb w (code c)) j
      = if j / w < s.len.toNat then (code (s.txtAt (j / w))).getLsbD (j % w) else true := by
  rw [paddedBit, getElem?_flatMap_const hw _ fun c => length_bitsLsb w (code c)]
  split_ifs with hlt
  · simp [State.text, hlt, getElem?_bitsLsb w _ (Nat.mod_lt j hw)]
  · simp [State.text, hlt]

theorem paddedBit_streamAlpha (s : State) (j : Nat) :
    paddedBit (streamAlpha s.text) j = alphaStreamBit s j := by
  have hseven : j % 7 < 7 := Nat.mod_lt j (by decide)
  rw [streamAlpha_eq_flatMap, paddedBit_flatMap_bitsLsb (by decide), alphaStreamBit,
    BitVec.getLsbD_setWidth, decide_eq_true hseven, Bool.true_and]

theorem paddedBit_streamNum (s : State) (j : Nat) :
    paddedBit (streamNum numTable s.text) j = numStreamBit s j := by
  rw [streamNum_eq_flatMap, paddedBit_flatMap_bitsLsb (by decide), numStreamBit]

/-! ### The pack operations -/

theorem isAlpha_iff (c : Byte) : isAlpha c = true ↔ 0x20#8 ≤ c ∧ c ≤ 0x7E#8 := by
  simp [isAlpha]

/-- The fifteen characters, as 30_encoding.md R106 lists them. -/
theorem isNumeric_iff (c : Byte) : isNumeric c = true ↔
    (0x30#8 ≤ c ∧ c ≤ 0x39#8) ∨ c = 0x20#8 ∨ c = 0x55#8 ∨ c = 0x2D#8 ∨ c = 0x5B#8 ∨ c = 0x5D#8 := by
  simp [isNumeric, or_assoc]

section
variable {s : State} {legal : Byte → Bool} (stream : List Byte → List Bit)

theorem pack_of_legal (hfit : s.len.toNat ≤ Config.maxChars)
    (hlegal : ∀ i, i < s.len.toNat → legal (s.txtAt i) = true) :
    pack legal stream s = .done { s with
      grp := Mem.writeBlock s.grp 0 (groups (pad (stream s.text)))
      ngrp := BitVec.ofNat 32 (groups (pad (stream s.text))).length } := by
  have hnone : s.text.findIdx? (fun c => !legal c) = none := by
    simpa [State.text, List.findIdx?_eq_none_iff] using hlegal
  rw [pack, if_neg (by omega), hnone]

/-- A pack operation in `IDLE` with a legal text that fits leaves the padded stream in the groups. -/
theorem runOp_pack_completes (c : Code) (hs : s.seq = .idle) (hfit : s.len.toNat ≤ Config.maxChars)
    (hlegal : ∀ i, i < s.len.toNat → legal (s.txtAt i) = true)
    (hroom : (groups (pad (stream s.text))).length ≤ Config.maxGrp) :
    ∃ t, runOp c (pack legal stream) s = .next t
      ∧ t = { s with grp := t.grp, ngrp := t.ngrp }
      ∧ t.ngrp.toNat = ((stream s.text).length + 19) / 20
      ∧ (∀ k j, k < t.ngrp.toNat → j < 20 →
          (t.grpAt k).getLsbD (19 - j) = paddedBit (stream s.text) (20 * k + j))
      ∧ ∀ k, t.ngrp.toNat ≤ k → t.grpAt k = s.grpAt k := by
  have hcount : (BitVec.ofNat 32 (groups (pad (stream s.text))).length).toNat
      = (groups (pad (stream s.text))).length := by
    have : Config.maxGrp < 2 ^ 32 := by decide
    rw [BitVec.toNat_ofNat, Nat.mod_eq_of_lt (by omega)]
  refine ⟨_, by rw [runOp_idle _ _ hs, pack_of_legal stream hfit hlegal], rfl,
    hcount.trans (length_groups_pad _), fun k j hk hj => ?_, fun k hk => ?_⟩
  · have hg := List.getElem?_eq_getElem (hcount ▸ hk)
    rw [State.grpAt, Mem.read_writeBlock_zero, hg, Option.getD_some,
      getLsbD_of_getElem?_groups_pad hg hj]
  · rw [State.grpAt, Mem.read_writeBlock_zero, List.getElem?_eq_none (hcount ▸ hk), Option.getD_none,
      State.grpAt]

end

/-- Settles O20: seven bits a character, laid into the groups by the pack operation. -/
theorem packaCompletes : Obligations.PackaCompletes := by
  unfold Obligations.PackaCompletes
  intro s hs hfit hlegal
  have hroom := length_groups_streamAlpha_le ((length_text s).trans_le hfit)
  have hpack := runOp_pack_completes streamAlpha 0x4#4 hs hfit
    (fun i hi => (isAlpha_iff _).mpr (hlegal i hi)) hroom
  rwa [length_streamAlpha, length_text, funext (paddedBit_streamAlpha s)] at hpack

/-- Settles O21: four bits a character, laid into the groups by the pack operation. -/
theorem packnCompletes : Obligations.PacknCompletes := by
  unfold Obligations.PacknCompletes
  intro s hs hfit hlegal
  have hroom := length_groups_streamNum_le numTable ((length_text s).trans_le hfit)
  have hpack := runOp_pack_completes (streamNum numTable) 0x5#4 hs hfit
    (fun i hi => (isNumeric_iff _).mpr (hlegal i hi)) hroom
  rwa [length_streamNum, length_text, funext (paddedBit_streamNum s)] at hpack

/-! ### Unpacking (42_bit_packer.md R165) -/

/-- Piece `i` of a concatenation of pieces of one length. -/
theorem take_drop_flatMap_const {α β : Type} {w : Nat} {f : α → List β} (hf : ∀ a, (f a).length = w)
    (xs : List α) (tail : List β) {i : Nat} (hi : i < xs.length) :
    ((xs.flatMap f ++ tail).drop (w * i)).take w = f xs[i] := by
  induction xs generalizing i with
  | nil => cases hi
  | cons a xs ih =>
    rw [List.flatMap_cons, List.append_assoc]
    cases i with
    | zero => simp [← hf a]
    | succ i =>
      have hdrop : w * (i + 1) = (f a).length + w * i := by rw [hf a, Nat.mul_succ, Nat.add_comm]
      rw [hdrop, List.drop_length_add_append, List.getElem_cons_succ]
      exact ih (Nat.lt_of_succ_lt_succ hi)

/-- Slice `i` of the groups of a text packed at `w` bits a character, read least significant bit first, is
the code of character `i`. -/
theorem numMsb_slice_groups_pad {w : Nat} (code : Byte → BitVec w) (text : List Byte) {i : Nat}
    (hi : i < text.length) :
    numMsb ((((groups (pad (text.flatMap fun c => bitsLsb w (code c)))).flatMap
      (bitsMsb 20)).drop (w * i)).take w).reverse = (code text[i]).toNat := by
  rw [flatMap_bitsMsb_groups_pad, pad,
    take_drop_flatMap_const (fun c => length_bitsLsb w (code c)) text _ hi, reverse_bitsLsb,
    numMsb_bitsMsb]

theorem unpackAlpha_groups_pad {text : List Byte} (h : ∀ c ∈ text, 0x20#8 ≤ c ∧ c ≤ 0x7E#8) :
    unpackAlpha (groups (pad (streamAlpha text))) text.length = text := by
  refine List.ext_getElem (by simp [unpackAlpha]) fun i _ hi => ?_
  have hslice := numMsb_slice_groups_pad (fun c => c.setWidth 7) text hi
  obtain ⟨-, hle⟩ := h _ (List.getElem_mem hi)
  simp only [unpackAlpha, List.getElem_map, List.getElem_range, streamAlpha_eq_flatMap, hslice]
  bv_omega

theorem unpackNum_groups_pad (t : NumTable) (text : List Byte) :
    unpackNum (groups (pad (streamNum t text))) text.length
      = text.map fun c => (numCode? t c).getD 0 := by
  refine List.ext_getElem (by simp [unpackNum]) fun i _ hi => ?_
  have hi : i < text.length := by simpa using hi
  have hslice := numMsb_slice_groups_pad (fun c => (numCode? t c).getD 0) text hi
  simp only [unpackNum, List.getElem_map, List.getElem_range, streamNum_eq_flatMap, hslice,
    BitVec.ofNat_toNat, BitVec.setWidth_eq]

/-- Settles O22: the bits of the groups are the padded stream, whose slices are the codes. -/
theorem unpackRecoversText : Obligations.UnpackRecoversText := by
  unfold Obligations.UnpackRecoversText
  exact ⟨fun _ h => unpackAlpha_groups_pad h, unpackNum_groups_pad numTable⟩

end Sys2Proof.Machine
end

section
/-! PROOFS. The frame assembler: a transmission is a list of 32-bit words, preamble included, and each place in
it holds the word that 43_frame_assembler.md R177 and R184 name. Hence the completion of `ASM` (R178), and
`ASM` as the placing of those words one after the other. -/

namespace Sys2Proof.Machine

variable {s : State}

/-! ### The words of a transmission (43_frame_assembler.md R177, R180, R184) -/

/-- Every slot, up to the last of the last batch, holds what R177 places there. -/
theorem getElem?_slots {q : Nat} (hq : q < 16 * batchCount s.ric s.ngrp.toNat) :
    (slots s.ric s.func s.groupList)[q]? = some (slotWord s q) := by
  have hlen := length_slots s.ric s.func s.groupList
  simp only [slots, messageCws, firstSlot_eq, List.length_append, List.length_replicate,
    List.length_cons, List.length_map, length_groupList] at hlen
  simp only [slots, messageCws, firstSlot_eq, slotWord, List.append_assoc, List.cons_append]
  obtain hbefore | rfl | hafter := Nat.lt_trichotomy q (addressSlot s.ric)
  · simp [hbefore, List.getElem?_append_left]
  · simp
  · obtain ⟨k, rfl⟩ : ∃ k, q = addressSlot s.ric + (k + 1) := ⟨q - addressSlot s.ric - 1, by omega⟩
    rw [List.getElem?_append_right (by simp), List.length_replicate, Nat.add_sub_cancel_left,
      List.getElem?_cons_succ, if_neg (by omega), if_neg (by omega)]
    by_cases hmessage : k < s.ngrp.toNat
    · rw [List.getElem?_append_left (by simpa using hmessage), if_pos (by omega)]
      simp [State.groupList, hmessage]
    · rw [List.getElem?_append_right (by simpa using hmessage), if_neg (by omega),
        List.getElem?_replicate_of_lt (by simp; omega)]

theorem length_syncWord_cons_take {ws : List Word32} (h : 16 ≤ ws.length) :
    (syncWord :: ws.take 16).length = 17 := by
  rw [List.length_cons, List.length_take_of_le h]

/-- Batch `b` is the sync codeword and slots `16 b` to `16 b + 15` (30_encoding.md R100). -/
theorem getElem?_batches {n b r : Nat} {ws : List Word32} (hws : ws.length = 16 * n) (hb : b < n)
    (hr : r < 17) :
    (batches n ws)[17 * b + r]? = (syncWord :: (ws.drop (16 * b)).take 16)[r]? := by
  induction b generalizing n ws with
  | zero =>
    obtain ⟨n, rfl⟩ := Nat.exists_eq_add_one_of_ne_zero hb.ne'
    rw [batches, Nat.mul_zero, Nat.zero_add, List.drop_zero,
      List.getElem?_append_left (by rwa [length_syncWord_cons_take (by omega)])]
  | succ b ih =>
    obtain ⟨n, rfl⟩ := Nat.exists_eq_add_one_of_ne_zero (Nat.ne_zero_of_lt hb)
    have hdrop : (ws.drop 16).length = 16 * n := by rw [List.length_drop]; omega
    have hfirst := length_syncWord_cons_take (ws := ws) (by omega)
    have hplace : 17 * (b + 1) + r = 17 + (17 * b + r) := by omega
    rw [batches, hplace, List.getElem?_append_right (by omega), hfirst, Nat.add_sub_cancel_left,
      ih hdrop (Nat.lt_of_succ_lt_succ hb), List.drop_drop, Nat.mul_succ, Nat.add_comm]

theorem length_slots_groupList (s : State) :
    (slots s.ric s.func s.groupList).length = 16 * batchCount s.ric s.ngrp.toNat := by
  rw [length_slots, length_groupList]

theorem getElem?_transmissionWords_preamble {w : Nat} (hw : w < 18) :
    (transmissionWords s)[w]? = some preambleWord := by
  rw [transmissionWords, List.getElem?_append_left (by simpa using hw), List.getElem?_replicate_of_lt hw]

theorem getElem?_transmissionWords_batches (s : State) (i : Nat) :
    (transmissionWords s)[18 + i]?
      = (batches (batchCount s.ric s.ngrp.toNat) (slots s.ric s.func s.groupList))[i]? := by
  rw [transmissionWords, length_slots_groupList, Nat.mul_div_cancel_left _ (by decide),
    List.getElem?_append_right (by simp), List.length_replicate, Nat.add_sub_cancel_left]

/-- The word before the slots of a batch (R184). -/
theorem getElem?_transmissionWords_sync {b : Nat} (hb : b < batchCount s.ric s.ngrp.toNat) :
    (transmissionWords s)[18 + 17 * b]? = some syncWord := by
  rw [getElem?_transmissionWords_batches]
  exact getElem?_batches (r := 0) (length_slots_groupList s) hb (by decide)

/-- The words of the slots of a batch (R184). -/
theorem getElem?_transmissionWords_slot {b q : Nat} (hb : b < batchCount s.ric s.ngrp.toNat)
    (hq : q < 16) : (transmissionWords s)[18 + 17 * b + 1 + q]? = some (slotWord s (16 * b + q)) := by
  have hplace : 18 + 17 * b + 1 + q = 18 + (17 * b + (q + 1)) := by omega
  rw [hplace, getElem?_transmissionWords_batches, getElem?_batches (length_slots_groupList s) hb (by omega),
    List.getElem?_cons_succ, List.getElem?_take_of_lt hq, List.getElem?_drop, getElem?_slots (by omega)]

/-- Eighteen preamble words are `1, 0` 288 times (30_encoding.md R99). -/
theorem preamble_eq_flatMap : preamble = (List.replicate 18 preambleWord).flatMap (bitsMsb 32) := by
  have hword : bitsMsb 32 preambleWord = (List.replicate 16 [1#1, 0#1]).flatten := by decide
  rw [preamble, show 288 = 18 * 16 from rfl, ← List.flatten_replicate_replicate, List.flatten_flatten,
    List.map_replicate, ← hword, List.flatMap_replicate]

/-- The bits of a transmission are those of its words. -/
theorem transmission_eq_flatMap (s : State) :
    transmission s.ric s.func s.groupList = (transmissionWords s).flatMap (bitsMsb 32) := by
  rw [transmission, transmissionWords, preamble_eq_flatMap, List.flatMap_append]

/-- R179: `NB` is the least number of batches that holds every codeword, and at most 3. -/
theorem batchCount_bounds (ric : BitVec 21) {n : Nat} (hn : n ≤ Config.maxGrp) :
    addressSlot ric + 1 + n ≤ 16 * batchCount ric n ∧ 16 * batchCount ric n < addressSlot ric + 1 + n + 16
      ∧ 1 ≤ batchCount ric n ∧ batchCount ric n ≤ 3 := by
  have hslot := addressSlot_le ric
  have hgrp : Config.maxGrp = 28 := rfl
  rw [batchCount]
  omega

/-! ### The bits of `BIT` from element 0 on -/

/-- `bs` stands in `BIT` from element 0 on and `NBITS` counts it. -/
def State.putBits (s : State) (bs : List Bit) : State :=
  { s with bit := Mem.writeBlock s.bit 0 bs, nbits := BitVec.ofNat 32 bs.length }

theorem State.toNat_putBits_nbits {bs : List Bit} (hfit : bs.length ≤ Config.maxBits) :
    (s.putBits bs).nbits.toNat = bs.length := by
  have : Config.maxBits < 2 ^ 32 := by decide
  exact Nat.mod_eq_of_lt (by omega)

theorem State.bitAt_putBits (s : State) (bs : List Bit) (j : Nat) :
    (s.putBits bs).bitAt j = bs[j]?.getD (s.bitAt j) :=
  Mem.read_writeBlock_zero _ _ _ _

/-- Where the bits are those of a list of words, the word view is that list (10_state.md R42). -/
theorem State.wordAt_putBits {ws : List Word32} {w : Nat} {v : Word32} (hw : ws[w]? = some v) :
    (s.putBits (ws.flatMap (bitsMsb 32))).wordAt w = v := by
  have hbits : ((List.range 32).map fun k => (s.putBits (ws.flatMap (bitsMsb 32))).bitAt (32 * w + k))
      = bitsMsb 32 v := by
    refine List.map_congr_left fun k hk => ?_
    have hk : k < 32 := List.mem_range.mp hk
    have hdiv : (32 * w + k) / 32 = w := by omega
    have hmod : (32 * w + k) % 32 = k := by omega
    rw [bitAt_putBits, getElem?_flatMap_const (by decide) _ (length_bitsMsb 32), hdiv, hmod, hw,
      Option.bind_some, getElem?_bitsMsb 32 v hk, Option.getD_some]
  rw [wordAt, hbits, wordMsb_bitsMsb]

/-! ### `ASM` in `IDLE` (43_frame_assembler.md R178) -/

theorem exec_asm_idle (hs : s.seq = .idle) (hfit : s.ngrp.toNat ≤ Config.maxGrp) :
    exec .asm s = .next (s.putBits ((transmissionWords s).flatMap (bitsMsb 32))) := by
  rw [exec, execAsm, runOp_idle _ _ hs, assemble, if_neg (by omega), transmission_eq_flatMap]
  rfl

/-- The bits fill whole batches (30_encoding.md R101). -/
theorem length_transmissionWords_bits (s : State) :
    ((transmissionWords s).flatMap (bitsMsb 32)).length = 576 + 544 * batchCount s.ric s.ngrp.toNat := by
  rw [← transmission_eq_flatMap, length_transmission, length_groupList]

theorem length_transmissionWords_bits_le (hfit : s.ngrp.toNat ≤ Config.maxGrp) :
    ((transmissionWords s).flatMap (bitsMsb 32)).length ≤ Config.maxBits := by
  rw [← transmission_eq_flatMap]
  exact length_transmission_le _ _ (by rwa [length_groupList])

/-- Settles O25: each word `ASM` writes is the one at its place in the transmission. -/
theorem asmCompletes : Obligations.AsmCompletes := by
  unfold Obligations.AsmCompletes
  intro s hs hfit
  obtain ⟨hholds, hleast, hpos, hthree⟩ := batchCount_bounds s.ric hfit
  have hnbits := State.toNat_putBits_nbits (s := s) (length_transmissionWords_bits_le hfit)
  refine ⟨_, _, exec_asm_idle hs hfit, rfl, hholds, hleast, hpos, hthree,
    hnbits.trans (length_transmissionWords_bits s), fun w hw => ?_, fun b hb => ?_, fun b q hb hq => ?_,
    fun j hj => ?_⟩
  · exact State.wordAt_putBits (getElem?_transmissionWords_preamble hw)
  · exact State.wordAt_putBits (getElem?_transmissionWords_sync hb)
  · exact State.wordAt_putBits (getElem?_transmissionWords_slot hb hq)
  · rw [State.bitAt_putBits, List.getElem?_eq_none (hnbits ▸ hj), Option.getD_none]

/-! ### `ASM` as the placing of words (log 13) -/

section
variable {α : Type}

theorem Mem.bounds_of_mem_cells {b : Nat} {vs : List α} {c : Nat × α} (hc : c ∈ Mem.cells b vs) :
    b ≤ c.1 ∧ c.1 < b + vs.length := by
  induction vs generalizing b with
  | nil => cases hc
  | cons v vs ih =>
    rw [List.length_cons]
    obtain rfl | hc := List.mem_cons.mp hc
    · exact ⟨le_rfl, by omega⟩
    · have := ih hc
      omega

theorem Mem.cells_append (b : Nat) (vs ws : List α) :
    Mem.cells b (vs ++ ws) = Mem.cells b vs ++ Mem.cells (b + vs.length) ws := by
  induction vs generalizing b with
  | nil => rfl
  | cons v vs ih =>
    have hnext : b + (v :: vs).length = b + 1 + vs.length := by rw [List.length_cons]; omega
    rw [hnext, List.cons_append, Mem.cells, ih, Mem.cells, List.cons_append]

/-- The cells below the end of a block: those below the block, then the block. -/
theorem Mem.filter_lt_writeBlock (m : Mem α) (b : Nat) (vs : List α) :
    (Mem.writeBlock m b vs).filter (fun c => c.1 < b + vs.length)
      = m.filter (fun c => c.1 < b) ++ Mem.cells b vs := by
  have hbelow : ∀ c : Nat × α, (decide (c.1 < b + vs.length) && decide (c.1 < b)) = decide (c.1 < b) := by
    grind
  have hcells : (Mem.cells b vs).filter (fun c => c.1 < b + vs.length) = Mem.cells b vs :=
    List.filter_eq_self.mpr fun c hc => decide_eq_true (Mem.bounds_of_mem_cells hc).2
  have habove : ∀ c : Nat × α, (decide (c.1 < b + vs.length) && decide (b + vs.length ≤ c.1)) = false := by
    grind
  simp only [Mem.writeBlock, List.filter_append, List.filter_filter, hbelow, hcells, habove,
    List.filter_false, List.append_nil]

/-- From the end of a block on, the cells are as before. -/
theorem Mem.filter_ge_writeBlock (m : Mem α) (b : Nat) (vs : List α) {e : Nat} (he : b + vs.length ≤ e) :
    (Mem.writeBlock m b vs).filter (fun c => e ≤ c.1) = m.filter (fun c => e ≤ c.1) := by
  have hbelow : ∀ c : Nat × α, (decide (e ≤ c.1) && decide (c.1 < b)) = false := by
    grind
  have hcells : (Mem.cells b vs).filter (fun c => e ≤ c.1) = [] :=
    List.filter_eq_nil_iff.mpr fun c hc => by
      have := Mem.bounds_of_mem_cells hc
      grind
  have habove : ∀ c : Nat × α, (decide (e ≤ c.1) && decide (b + vs.length ≤ c.1)) = decide (e ≤ c.1) := by
    grind
  simp only [Mem.writeBlock, List.filter_append, List.filter_filter, hbelow, hcells, habove,
    List.filter_false, List.nil_append]

/-- A block written right after a block makes one block of the two. -/
theorem Mem.writeBlock_writeBlock (m : Mem α) (b : Nat) (vs ws : List α) :
    Mem.writeBlock (Mem.writeBlock m b vs) (b + vs.length) ws = Mem.writeBlock m b (vs ++ ws) := by
  rw [Mem.writeBlock, Mem.filter_lt_writeBlock, Mem.filter_ge_writeBlock m b vs (Nat.le_add_right _ _),
    Mem.writeBlock, Mem.cells_append, List.length_append, Nat.add_assoc, List.append_assoc (m.filter _)]

end

/-- Placing a word appends its bits. -/
theorem placeWord_putBits {bs : List Bit} (w : Word32) (hb : s.seq ≠ .busy)
    (hfit : bs.length + 32 ≤ Config.maxBits) :
    placeWord w (s.putBits bs) = .next (s.putBits (bs ++ bitsMsb 32 w)) := by
  have hnbits : (s.putBits bs).nbits.toNat = bs.length := State.toNat_putBits_nbits (by omega)
  have hbit : Mem.writeBlock (Mem.writeBlock s.bit 0 bs) bs.length (bitsMsb 32 w)
      = Mem.writeBlock s.bit 0 (bs ++ bitsMsb 32 w) := by
    simpa using Mem.writeBlock_writeBlock s.bit 0 bs (bitsMsb 32 w)
  rw [placeWord_of_fits (s := s.putBits bs) w hb (by omega), hnbits]
  simp only [State.putBits, hbit, List.length_append, length_bitsMsb, BitVec.ofNat_add, BitVec.ofNat_eq_ofNat]

theorem placeWords_putBits {bs : List Bit} {ws : List Word32} (hb : s.seq ≠ .busy)
    (hfit : (bs ++ ws.flatMap (bitsMsb 32)).length ≤ Config.maxBits) :
    placeWords ws (s.putBits bs) = .next (s.putBits (bs ++ ws.flatMap (bitsMsb 32))) := by
  induction ws generalizing bs with
  | nil => rw [placeWords, List.flatMap_nil, List.append_nil]
  | cons w ws ih =>
    rw [List.flatMap_cons, ← List.append_assoc] at hfit ⊢
    have hword : bs.length + 32 ≤ Config.maxBits := by
      simp only [List.length_append, length_bitsMsb] at hfit
      omega
    rw [placeWords, placeWord_putBits w hb hword]
    exact ih hfit

theorem State.putBits_nil (s : State) : s.putBits [] = { s with nbits := 0 } := by
  simp [putBits, Mem.writeBlock, Mem.cells]

/-- Settles O46: each word placed appends its bits to those before it, from none on. -/
theorem asmPlacesItsWordsInOrder : Obligations.AsmPlacesItsWordsInOrder := by
  unfold Obligations.AsmPlacesItsWordsInOrder
  intro s hs hfit
  have hbusy : s.seq ≠ .busy := by simp [hs]
  have hplaced := placeWords_putBits (bs := []) (ws := transmissionWords s) hbusy
    (by simpa only [List.nil_append] using length_transmissionWords_bits_le hfit)
  rw [exec_asm_idle hs hfit, ← State.putBits_nil, hplaced, List.nil_append]

end Sys2Proof.Machine
end

section
/-! PROOFS. The modulator: the machine's loop over the samples goes through the phases of the recurrence of
44_fsk_modulator.md R203, which gives the completion of `MOD` (R204). The properties of R204 (c), (d), (e) and
R205 are then facts about that recurrence. -/

namespace Sys2Proof.Machine

variable {s : State} {n : Nat}

/-! ### The machine's loop and the recurrence (44_fsk_modulator.md R199, R203) -/

/-- Sample `n` is a sample of bit `n / SPB` (R199). -/
theorem getElem?_sampleBits (hn : n < s.nbits.toNat * samplesPerBit s) :
    (sampleBits s.spb s.bitList)[n]? = some (s.bitAt (n / samplesPerBit s)) := by
  have hspb : 0 < samplesPerBit s := Nat.pos_of_mul_pos_left (Nat.zero_lt_of_lt hn)
  have hbit : n / samplesPerBit s < s.nbits.toNat := Nat.div_lt_of_lt_mul (by rwa [Nat.mul_comm])
  rw [sampleBits, spb_eq, getElem?_flatMap_const hspb _ (fun _ => List.length_replicate), State.bitList,
    List.getElem?_map, List.getElem?_range hbit, Option.map_some, Option.bind_some,
    List.getElem?_replicate_of_lt (Nat.mod_lt _ hspb)]

/-- The phase of a sample is what the samples before it leave. -/
theorem getElem?_phases (fs dev : Nat) (inv : Bit) (ph : Nat) {bs : List Bit} (hn : n < bs.length) :
    (phases fs dev inv ph bs)[n]? = some (lastPhase fs dev inv ph (bs.take n)) := by
  have hrest : bs.drop n = bs[n] :: bs.drop (n + 1) := List.drop_eq_getElem_cons hn
  have htake : (bs.take n).length = n := List.length_take_of_le hn.le
  conv_lhs => rw [← List.take_append_drop n bs, phases_append]
  rw [List.getElem?_append_right (by simp [htake]), length_phases, htake, Nat.sub_self, hrest]
  rfl

/-- The machine's advance is the recurrence's step. -/
theorem advance_phaseAt (s : State) (n : Nat) :
    advance s.cfgFs.toNat s.cfgDev.toNat s.cfgInvert (phaseAt s n) (s.bitAt (n / samplesPerBit s))
      = phaseAt s (n + 1) := by
  rw [advance, toneSign_eq, phaseAt]

/-- Over the first `n` samples the machine advances the phase as the recurrence does. -/
theorem lastPhase_take_sampleBits (hn : n ≤ s.nbits.toNat * samplesPerBit s) :
    lastPhase s.cfgFs.toNat s.cfgDev.toNat s.cfgInvert 0 ((sampleBits s.spb s.bitList).take n)
      = phaseAt s n := by
  induction n with
  | zero => rfl
  | succ n ih =>
    have hbefore := ih (Nat.le_of_succ_le hn)
    rw [lastPhase] at hbefore ⊢
    rw [List.take_add_one, getElem?_sampleBits hn, List.foldl_append, hbefore]
    exact advance_phaseAt s n

theorem length_sampleBits_bitList (s : State) :
    (sampleBits s.spb s.bitList).length = s.nbits.toNat * samplesPerBit s := by
  rw [length_sampleBits, length_bitList, spb_eq]

theorem getElem?_phases_sampleBits (hn : n < s.nbits.toNat * samplesPerBit s) :
    (phases s.cfgFs.toNat s.cfgDev.toNat s.cfgInvert 0 (sampleBits s.spb s.bitList))[n]?
      = some (phaseAt s n) := by
  rw [getElem?_phases _ _ _ _ (by rwa [length_sampleBits_bitList]), lastPhase_take_sampleBits hn.le]

theorem lastPhase_sampleBits (s : State) :
    lastPhase s.cfgFs.toNat s.cfgDev.toNat s.cfgInvert 0 (sampleBits s.spb s.bitList)
      = phaseAt s (s.nbits.toNat * samplesPerBit s) := by
  rw [← lastPhase_take_sampleBits le_rfl, ← length_sampleBits_bitList, List.take_length]

/-! ### `MOD` in `IDLE` (44_fsk_modulator.md R204) -/

theorem State.ValidConfig.configCheck_eq_none (hcfg : s.ValidConfig) : configCheck s = none := by
  obtain ⟨⟨hbaud, hdev, hinvert, hfs⟩, hbaudPos, hfsPos, hdiv⟩ := hcfg
  simp [configCheck, hbaud, hdev, hinvert, hfs, hbaudPos.ne', hfsPos.ne', hdiv]

/-- A bit has at least one sample, since `CFG_BAUD` divides a positive `CFG_FS`. -/
theorem State.ValidConfig.samplesPerBit_pos (hcfg : s.ValidConfig) : 0 < samplesPerBit s :=
  Nat.div_pos (Nat.le_of_dvd hcfg.fsPos (Nat.dvd_of_mod_eq_zero hcfg.divides)) hcfg.baudPos

/-- What `MOD` leaves where nothing stops it. -/
def State.modulated (s : State) : State :=
  { s with
    smp := Mem.writeBlock s.smp 0
      ((phases s.cfgFs.toNat s.cfgDev.toNat s.cfgInvert 0 (sampleBits s.spb s.bitList)).map
        fun ph => Config.iq ph s.cfgFs.toNat)
    nsamp := BitVec.ofNat 32 (s.nbits.toNat * s.spb)
    phase := lastPhase s.cfgFs.toNat s.cfgDev.toNat s.cfgInvert 0 (sampleBits s.spb s.bitList) }

theorem exec_mod_idle (hs : s.seq = .idle) (hcfg : s.ValidConfig) (hbits : s.nbits.toNat ≤ Config.maxBits)
    (hfit : s.nbits.toNat * s.spb ≤ Config.maxSamp) : exec .mod s = .next s.modulated := by
  have hdone : modulate Config.maxSamp s = .done s.modulated := by
    rw [modulate, hcfg.configCheck_eq_none]
    simp only [if_neg (Nat.not_lt.mpr hbits), if_neg (Nat.not_lt.mpr hfit)]
    rfl
  rw [exec, execMod, runOp_idle _ _ hs, hdone]

theorem State.toNat_modulated_nsamp (hfit : s.nbits.toNat * samplesPerBit s ≤ Config.maxSamp) :
    s.modulated.nsamp.toNat = s.nbits.toNat * samplesPerBit s := by
  have : Config.maxSamp < 2 ^ 32 := by decide
  exact Nat.mod_eq_of_lt (lt_of_le_of_lt hfit this)

theorem State.modulated_smpAt (hn : n < s.nbits.toNat * samplesPerBit s) :
    s.modulated.smpAt n = Config.iq (phaseAt s n) s.cfgFs.toNat := by
  rw [smpAt, modulated, Mem.read_writeBlock_zero, List.getElem?_map, getElem?_phases_sampleBits hn,
    Option.map_some, Option.getD_some]

theorem State.modulated_smpAt_of_ge (hn : s.nbits.toNat * samplesPerBit s ≤ n) :
    s.modulated.smpAt n = s.smpAt n := by
  rw [smpAt, modulated, Mem.read_writeBlock_zero, List.getElem?_eq_none, Option.getD_none, smpAt]
  rwa [List.length_map, length_phases, length_sampleBits_bitList]

/-- Settles O28: the block of samples `MOD` writes is `IQ` of the recurrence's phases, one after the other. -/
theorem modCompletes : Obligations.ModCompletes := by
  unfold Obligations.ModCompletes
  intro s hs hcfg hbits hfit
  have hnsamp := State.toNat_modulated_nsamp (s := s) hfit
  refine ⟨_, exec_mod_idle hs hcfg hbits hfit, rfl, hnsamp, fun n hn => ?_, ?_, fun n hn => ?_⟩
  · exact State.modulated_smpAt (hnsamp ▸ hn)
  · rw [hnsamp]
    exact lastPhase_sampleBits s
  · exact State.modulated_smpAt_of_ge (hnsamp ▸ hn)

/-! ### The closed form (44_fsk_modulator.md R204 (c)) -/

theorem cast_phaseAt_succ (hfs : 0 < s.cfgFs.toNat) (n : Nat) :
    (phaseAt s (n + 1) : Int)
      = ((phaseAt s n : Int)
          + offsetSign s.cfgInvert (s.bitAt (n / samplesPerBit s)) * (s.cfgDev.toNat : Int))
        % (s.cfgFs.toNat : Int) :=
  Int.toNat_of_nonneg (Int.emod_nonneg _ (by omega))

theorem cast_phaseOf (hfs : 0 < s.cfgFs.toNat) (j k : Nat) :
    (phaseOf s j k : Int)
      = ((s.cfgDev.toNat : Int)
          * ((samplesPerBit s : Int) * signSum s j + (k : Int) * offsetSign s.cfgInvert (s.bitAt j)))
        % (s.cfgFs.toNat : Int) :=
  Int.toNat_of_nonneg (Int.emod_nonneg _ (by omega))

/-- Within a bit the closed form advances by the bit's tone. -/
theorem cast_phaseOf_succ (hfs : 0 < s.cfgFs.toNat) (j k : Nat) :
    (phaseOf s j (k + 1) : Int)
      = ((phaseOf s j k : Int) + offsetSign s.cfgInvert (s.bitAt j) * (s.cfgDev.toNat : Int))
        % (s.cfgFs.toNat : Int) := by
  rw [cast_phaseOf hfs, cast_phaseOf hfs, Int.emod_add_emod]
  congr 1
  push_cast
  ring

/-- Where a bit ends the next one begins: the phase is continuous (R201). -/
theorem phaseOf_samplesPerBit (s : State) (j : Nat) :
    phaseOf s j (samplesPerBit s) = phaseOf s (j + 1) 0 := by
  rw [phaseOf, phaseOf, signSum]
  congr 2
  push_cast
  ring

/-- Through one bit the recurrence keeps to the closed form. -/
theorem phaseAt_eq_phaseOf_of_start (hfs : 0 < s.cfgFs.toNat) {j k : Nat}
    (hstart : phaseAt s (j * samplesPerBit s) = phaseOf s j 0) (hk : k ≤ samplesPerBit s) :
    phaseAt s (j * samplesPerBit s + k) = phaseOf s j k := by
  induction k with
  | zero => exact hstart
  | succ k ih =>
    have hbit : (j * samplesPerBit s + k) / samplesPerBit s = j :=
      Nat.div_eq_of_lt_le (Nat.le_add_right _ _) (by rw [Nat.succ_mul]; omega)
    have hstep := cast_phaseAt_succ hfs (j * samplesPerBit s + k)
    rw [hbit, ih (Nat.le_of_succ_le hk), ← cast_phaseOf_succ hfs] at hstep
    exact Int.ofNat_inj.mp hstep

theorem phaseAt_mul_samplesPerBit (hfs : 0 < s.cfgFs.toNat) (j : Nat) :
    phaseAt s (j * samplesPerBit s) = phaseOf s j 0 := by
  induction j with
  | zero => simp [phaseAt, phaseOf, signSum]
  | succ j ih =>
    rw [Nat.succ_mul, phaseAt_eq_phaseOf_of_start hfs ih le_rfl, phaseOf_samplesPerBit]

theorem phaseAt_eq_phaseOf (hfs : 0 < s.cfgFs.toNat) (j : Nat) {k : Nat} (hk : k ≤ samplesPerBit s) :
    phaseAt s (j * samplesPerBit s + k) = phaseOf s j k :=
  phaseAt_eq_phaseOf_of_start hfs (phaseAt_mul_samplesPerBit hfs j) hk

/-- Settles O29: the phases `MOD` goes through are the recurrence's, which has the closed form. -/
theorem phaseHasClosedForm : Obligations.PhaseHasClosedForm := by
  unfold Obligations.PhaseHasClosedForm
  intro s hs hcfg hbits hfit
  obtain ⟨t, hexec, -, hnsamp, hsmp, hphase, -⟩ := modCompletes s hs hcfg hbits hfit
  refine ⟨t, hexec, fun j k hj hk => ?_, ?_⟩
  · have hn : j * samplesPerBit s + k < s.nbits.toNat * samplesPerBit s :=
      calc j * samplesPerBit s + k < (j + 1) * samplesPerBit s := by rw [Nat.succ_mul]; omega
        _ ≤ s.nbits.toNat * samplesPerBit s := Nat.mul_le_mul_right _ hj
    rw [← phaseAt_eq_phaseOf hcfg.fsPos j hk.le]
    exact ⟨hsmp _ (hnsamp ▸ hn), getElem?_phases_sampleBits hn⟩
  · rw [hphase, hnsamp]
    exact phaseAt_mul_samplesPerBit hcfg.fsPos _

/-! ### The other polarity (44_fsk_modulator.md R204 (d)) -/

theorem phaseAt_lt (hfs : 0 < s.cfgFs.toNat) (n : Nat) : phaseAt s n < s.cfgFs.toNat := by
  cases n with
  | zero => exact hfs
  | succ n =>
    rw [← advance_phaseAt]
    exact advance_lt _ _ _ _ hfs

/-- The same bits with the other polarity. -/
def State.flipInvert (s : State) : State := { s with cfgInvert := s.cfgInvert ^^^ 1#1 }

/-- The recurrence of the other polarity takes the offset away where that of `s` adds it. -/
theorem cast_phaseAt_flipInvert_succ (hfs : 0 < s.cfgFs.toNat) (n : Nat) :
    (phaseAt s.flipInvert (n + 1) : Int)
      = ((phaseAt s.flipInvert n : Int)
          - offsetSign s.cfgInvert (s.bitAt (n / samplesPerBit s)) * (s.cfgDev.toNat : Int))
        % (s.cfgFs.toNat : Int) := by
  rw [Int.sub_eq_add_neg, ← Int.neg_mul, ← offsetSign_flip]
  exact cast_phaseAt_succ (s := s.flipInvert) hfs n

/-- Each step adds opposite offsets to the two phases, so that their sum stays a multiple of `CFG_FS`. -/
theorem phaseAt_flipInvert_add (hfs : 0 < s.cfgFs.toNat) (n : Nat) :
    (phaseAt s.flipInvert n + phaseAt s n) % s.cfgFs.toNat = 0 := by
  suffices h : (((phaseAt s.flipInvert n : Int) + (phaseAt s n : Int)) % (s.cfgFs.toNat : Int)) = 0 by
    exact_mod_cast h
  induction n with
  | zero => rfl
  | succ n ih =>
    rw [cast_phaseAt_flipInvert_succ hfs, cast_phaseAt_succ hfs, ← Int.add_emod, ← ih]
    congr 1
    ring

/-- Settles O30: both runs complete, and their phases at each sample are those of the two recurrences. -/
theorem otherPolarityNegatesPhases : Obligations.OtherPolarityNegatesPhases := by
  unfold Obligations.OtherPolarityNegatesPhases
  intro s hs hcfg hbits hfit
  have hflip : s.flipInvert.ValidConfig := { hcfg with }
  obtain ⟨t, hexec, -, hnsamp, hsmp, hphase, -⟩ := modCompletes s hs hcfg hbits hfit
  obtain ⟨t', hexec', -, hnsamp', hsmp', hphase', -⟩ := modCompletes s.flipInvert hs hflip hbits hfit
  have hcount : t'.nsamp = t.nsamp := BitVec.eq_of_toNat_eq (hnsamp'.trans hnsamp.symm)
  refine ⟨t, t', hexec, hexec', hcount, ?_, fun n hn => ?_⟩
  · rw [hphase', hphase, hcount]
    exact phaseAt_flipInvert_add hcfg.fsPos _
  · exact ⟨phaseAt s n, phaseAt s.flipInvert n, phaseAt_lt hcfg.fsPos n, phaseAt_lt hflip.fsPos n,
      phaseAt_flipInvert_add hcfg.fsPos n, rfl, hsmp n hn, hsmp' n (hcount ▸ hn)⟩

/-! ### After a preamble (44_fsk_modulator.md R204 (e)) -/

theorem offsetSign_one_add_zero (inv : Bit) : offsetSign inv 1#1 + offsetSign inv 0#1 = 0 := by
  revert inv; decide

/-- Each pair `1, 0` of alternating bits adds one offset of each sign. -/
theorem signSum_alternating {m : Nat}
    (halt : ∀ j, j < 2 * m → s.bitAt j = if j % 2 = 0 then 1#1 else 0#1) : signSum s (2 * m) = 0 := by
  induction m with
  | zero => rfl
  | succ m ih =>
    have hpairs := ih fun j hj => halt j (by omega)
    have hone : s.bitAt (2 * m) = 1#1 := by rw [halt _ (by omega), if_pos (by omega)]
    have hzero : s.bitAt (2 * m + 1) = 0#1 := by rw [halt _ (by omega), if_neg (by omega)]
    rw [Nat.mul_succ, signSum, signSum, hpairs, hone, hzero, Int.zero_add]
    exact offsetSign_one_add_zero _

/-- A bit before which as many bits went to one tone as to the other begins at phase 0. -/
theorem phaseOf_zero_of_signSum {j : Nat} (h : signSum s j = 0) : phaseOf s j 0 = 0 := by
  simp [phaseOf, h]

/-- Settles O31: the offsets of the preamble cancel, so the closed form is 0 after its 576 bits. -/
theorem preambleReturnsPhaseToZero : Obligations.PreambleReturnsPhaseToZero := by
  unfold Obligations.PreambleReturnsPhaseToZero
  intro s hs hcfg _ hbits hfit halt
  obtain ⟨t, hexec, -, hnsamp, hsmp, hphase, -⟩ := modCompletes s hs hcfg hbits hfit
  have hzero : phaseAt s (576 * samplesPerBit s) = 0 := by
    rw [phaseAt_mul_samplesPerBit hcfg.fsPos]
    exact phaseOf_zero_of_signSum (signSum_alternating (m := 288) halt)
  refine ⟨t, hexec, fun hall => ?_, fun hmore => ?_⟩
  · rw [hphase, hnsamp, hall]
    exact hzero
  · have hn : 576 * samplesPerBit s < t.nsamp.toNat :=
      hnsamp ▸ Nat.mul_lt_mul_of_pos_right hmore hcfg.samplesPerBit_pos
    rw [hsmp _ hn, hzero]

/-! ### What the samples depend on (44_fsk_modulator.md R205) -/

/-- `MOD` that ends in `IDLE` found counts that fit. -/
theorem mod_fits_of_idle {t : State} (h : exec .mod s = .next t) (ht : t.seq = .idle) :
    s.nbits.toNat ≤ Config.maxBits ∧ s.nbits.toNat * s.spb ≤ Config.maxSamp := by
  cases exec_next h with
  | ignored _ seqError => rw [seqError] at ht; cases ht
  | raised => cases ht
  | mod _ _ bitsFit samplesFit => exact ⟨bitsFit, samplesFit⟩
  | placed wireWord => cases wireWord

/-- The recurrence reads the bits of the samples before, and three registers. -/
theorem phaseAt_congr {s' : State} (hspb : samplesPerBit s' = samplesPerBit s) (hdev : s'.cfgDev = s.cfgDev)
    (hinv : s'.cfgInvert = s.cfgInvert) (hfs : s'.cfgFs = s.cfgFs)
    (hbit : ∀ j, j < s.nbits.toNat → s'.bitAt j = s.bitAt j)
    (hn : n ≤ s.nbits.toNat * samplesPerBit s) : phaseAt s' n = phaseAt s n := by
  induction n with
  | zero => rfl
  | succ n ih =>
    have hlt : n / samplesPerBit s < s.nbits.toNat := Nat.div_lt_of_lt_mul (by rwa [Nat.mul_comm])
    rw [phaseAt, phaseAt, ih (Nat.le_of_succ_le hn), hspb, hdev, hinv, hfs, hbit _ hlt]

/-- Settles O32: both runs complete, and the recurrence gives both the same phases. -/
theorem modDependsOnItsInputsAlone : Obligations.ModDependsOnItsInputsAlone := by
  unfold Obligations.ModDependsOnItsInputsAlone
  intro s s' t t' hs hs' hcfg hcfg' hnbits hbit hbaud hdev hinv hfs hexec hexec' ht
  have hspb : samplesPerBit s' = samplesPerBit s := by rw [samplesPerBit, samplesPerBit, hbaud, hfs]
  obtain ⟨hbits, hfit⟩ := mod_fits_of_idle hexec ht
  have hbits' : s'.nbits.toNat ≤ Config.maxBits := by rwa [hnbits]
  have hfit' : s'.nbits.toNat * samplesPerBit s' ≤ Config.maxSamp := by rwa [hnbits, hspb]
  obtain ⟨u, hu, -, hnsamp, hsmp, hphase, -⟩ := modCompletes s hs hcfg hbits hfit
  obtain ⟨u', hu', hframe', hnsamp', hsmp', hphase', -⟩ := modCompletes s' hs' hcfg' hbits' hfit'
  cases hexec.symm.trans hu
  cases hexec'.symm.trans hu'
  have hcount : t'.nsamp = t.nsamp :=
    BitVec.eq_of_toNat_eq (hnsamp'.trans ((congrArg₂ _ (congrArg _ hnbits) hspb).trans hnsamp.symm))
  have hsame : ∀ n, n ≤ t.nsamp.toNat → phaseAt s' n = phaseAt s n := fun n hn =>
    phaseAt_congr hspb hdev hinv hfs hbit (hnsamp ▸ hn)
  refine ⟨by rw [hframe']; exact hs', hcount, ?_, fun n hn => ?_⟩
  · rw [hphase', hphase, hcount, hsame _ le_rfl]
  · rw [hsmp' n (hcount ▸ hn), hsmp n hn, hsame n hn.le, hfs]

end Sys2Proof.Machine
end

section
/-! PROOFS. What a host access of a register or an element answers where it names one, register by register, and
the obligations about the host's reads and writes (45_control_ops.md R222, R223). -/

namespace Sys2Proof.Machine

variable {s : State} {n v : Nat} {r : Reg}

/-! ### Writes of registers -/

theorem hostWr_of_readOnly (v : Nat) (hb : s.seq ≠ .busy) (hn : regOf n = some r) (hro : r.readOnly = true) :
    hostWr n v s = .next s := by
  rw [hostWr, hostAccess_of_ne_busy _ hb, hn]
  simp only [hro, if_true]

theorem hostWr_of_writable (hb : s.seq ≠ .busy) (hn : regOf n = some r) (hro : r.readOnly = false)
    (hcmd : r ≠ .cmd) (hv : v < 2 ^ r.width) : hostWr n v s = .next (s.regWrite r v) := by
  rw [hostWr, hostAccess_of_ne_busy _ hb, hn]
  simp only [hro, Bool.false_eq_true, if_false, if_pos hv, if_neg hcmd]

/-- A number that fits a register is the same number in the 32 bits a read returns. -/
theorem setWidth_ofNat_of_lt {w : Nat} (hv : v < 2 ^ w) :
    (BitVec.ofNat w v).setWidth 32 = BitVec.ofNat 32 v :=
  BitVec.eq_of_toNat_eq (by simp [Nat.mod_eq_of_lt hv])

theorem State.regRead_regWrite_self (s : State) (hro : r.readOnly = false) (hcmd : r ≠ .cmd)
    (hv : v < 2 ^ r.width) : (s.regWrite r v).regRead r = BitVec.ofNat 32 v := by
  cases r with
  | cmd => exact absurd rfl hcmd
  | status | ecode | einfo | eop | p | cw | nsamp => cases hro
  | d | ric | func | pay | mtype | cfgInvert => exact setWidth_ofNat_of_lt hv
  | len | ngrp | nbits | cfgCenter | cfgBaud | cfgDev | cfgFs | cfgPower => rfl

/-- Two registers stand in two fields; only `STATUS` shows fields that a write of another one changes. -/
theorem State.regRead_regWrite_of_ne (s : State) (v : Nat) {r' : Reg} (hr : r' ≠ r)
    (hstatus : r' ≠ .status) : (s.regWrite r v).regRead r' = s.regRead r' := by
  cases r <;> cases r' <;> try contradiction
  all_goals rfl

/-- A host write of a register reaches no memory, no free value, no hidden register and no field of the
host's own. -/
theorem State.regWrite_frame (s : State) (r : Reg) (v : Nat) :
    (s.regWrite r v).txt = s.txt ∧ (s.regWrite r v).grp = s.grp ∧ (s.regWrite r v).bit = s.bit
      ∧ (s.regWrite r v).smp = s.smp ∧ (s.regWrite r v).seq = s.seq ∧ (s.regWrite r v).phase = s.phase
      ∧ (s.regWrite r v).curOp = s.curOp ∧ (s.regWrite r v).resets = s.resets
      ∧ (s.regWrite r v).rdata = s.rdata ∧ (s.regWrite r v).prog = s.prog := by
  cases r <;> exact ⟨rfl, rfl, rfl, rfl, rfl, rfl, rfl, rfl, rfl, rfl⟩

/-- Settles O51: a read returns the field that the write sets, and no other field. -/
theorem hostWriteIsReadBack : Obligations.HostWriteIsReadBack := by
  unfold Obligations.HostWriteIsReadBack
  intro s n v r hb hn hro hcmd hv
  exact ⟨_, hostWr_of_writable hb hn hro hcmd hv, s.regRead_regWrite_self hro hcmd hv,
    fun _ => s.regRead_regWrite_of_ne v, s.regWrite_frame r v⟩

/-! ### `CFGV` (45_control_ops.md R223) -/

/-- The configuration registers have the numbers from `0x18` on (10_state.md R30). -/
theorem regOf_ne_configuration (hn : n < 0x18) :
    ∀ r ∈ [Reg.cfgCenter, .cfgBaud, .cfgDev, .cfgInvert, .cfgFs, .cfgPower], regOf n ≠ some r := by
  revert n
  decide

theorem State.regWrite_cfgv_of_lt (s : State) (v : Nat) (hn : n < 0x18) (hr : regOf n = some r) :
    (s.regWrite r v).cfgv = s.cfgv := by
  cases r with
  | cfgCenter | cfgBaud | cfgDev | cfgInvert | cfgFs | cfgPower =>
    exact absurd hr (regOf_ne_configuration hn _ (by decide))
  | _ => rfl

/-- A write of `CMD` starts an operation or runs an instruction, neither of which writes `CFGV`. -/
theorem cmdWrite_cfgv {c : Code} {t : State} (h : cmdWrite c s = .next t) : t.cfgv = s.cfgv := by
  have hexec (h : exec (decodeCode c) s = .next t) : t.cfgv = s.cfgv := by
    obtain ⟨-, -, -, -, -, -, hcfgv⟩ := (exec_next h).config_eq
    exact hcfgv
  obtain ⟨-, h⟩ | ⟨-, -, h⟩ | ⟨-, -, -, rfl⟩ := cmdWrite_next h
  · exact hexec h
  · exact hexec h
  · rfl

/-- Settles O52: the six writes store value and bit; below `0x18` no write reaches `CFGV`. -/
theorem configurationWriteSetsItsBit : Obligations.ConfigurationWriteSetsItsBit := by
  unfold Obligations.ConfigurationWriteSetsItsBit
  intro s v hb
  have hwrite {n : Nat} {r : Reg} (hn : regOf n = some r) (hro : r.readOnly = false) (hcmd : r ≠ .cmd)
      (hv : v < 2 ^ r.width) : runMove (.wr n v) s = .next (s.regWrite r v) :=
    hostWr_of_writable hb hn hro hcmd hv
  refine ⟨fun hv => ⟨?_, ?_, ?_, ?_, ?_⟩, fun hv => ?_, fun n t hn h => ?_⟩
  · exact hwrite (r := .cfgCenter) rfl rfl (by decide) hv
  · exact hwrite (r := .cfgBaud) rfl rfl (by decide) hv
  · exact hwrite (r := .cfgDev) rfl rfl (by decide) hv
  · exact hwrite (r := .cfgFs) rfl rfl (by decide) hv
  · exact hwrite (r := .cfgPower) rfl rfl (by decide) hv
  · exact hwrite (r := .cfgInvert) rfl rfl (by decide) hv
  · obtain ⟨-, r, hr, ⟨-, rfl⟩ | ⟨-, -, h⟩ | ⟨-, -, -, rfl⟩⟩ := hostWr_next h
    · rfl
    · exact cmdWrite_cfgv h
    · exact s.regWrite_cfgv_of_lt v hn hr

theorem spaceOf_smp : spaceOf 3 = some .smp := rfl

/-- Settles O53: such a register keeps its value, and so does `SMP`. -/
theorem readOnlyWriteIsIgnored : Obligations.ReadOnlyWriteIsIgnored := by
  unfold Obligations.ReadOnlyWriteIsIgnored
  intro s hb
  exact ⟨fun n r v hn hro => hostWr_of_readOnly v hb hn hro,
    fun i v hi => hostWrm_of_element v hb spaceOf_smp hi⟩

/-! ### Reads -/

theorem hostRd_of_register (hb : s.seq ≠ .busy) (hn : regOf n = some r) :
    hostRd n s = .next { s with rdata := .word (s.regRead r) } := by
  rw [hostRd]
  split
  · next h1 => subst h1; cases hn; rfl
  · rw [hostAccess_of_ne_busy _ hb, hn]

theorem hostRdm_of_element {i : Nat} {sp : Space} (hb : s.seq ≠ .busy) (hn : spaceOf n = some sp)
    (hi : i < sp.capacity) : hostRdm n i s = .next { s with rdata := s.memRead sp i } := by
  rw [hostRdm, hostAccess_of_ne_busy _ hb, hn]
  exact if_pos hi

/-- The registers of `registerValues`, each with its number. -/
def numberedRegisters : List (Nat × Reg) :=
  [(0x00, .cmd), (0x02, .ecode), (0x03, .einfo), (0x04, .eop),
    (0x08, .d), (0x09, .p), (0x0A, .ric), (0x0B, .func), (0x0C, .pay), (0x0D, .cw), (0x0E, .mtype),
    (0x10, .len), (0x11, .ngrp), (0x12, .nbits), (0x13, .nsamp),
    (0x18, .cfgCenter), (0x19, .cfgBaud), (0x1A, .cfgDev), (0x1B, .cfgInvert), (0x1C, .cfgFs),
    (0x1D, .cfgPower)]

theorem registerValues_eq_map (s : State) :
    registerValues s = numberedRegisters.map fun p => (p.1, s.regRead p.2) := rfl

theorem regOf_of_mem_numberedRegisters : ∀ p ∈ numberedRegisters, regOf p.1 = some p.2 := by decide

/-- Every register but `STATUS` is among them. -/
theorem exists_mem_numberedRegisters (hn : regOf n = some r) (hstatus : n ≠ 0x01) :
    ∃ p ∈ numberedRegisters, p.1 = n := by
  have hlisted : ∀ n, n ≤ 0x1D → n ≠ 0x01 → (regOf n).isSome = true → ∃ p ∈ numberedRegisters, p.1 = n := by
    decide
  have hle : n ≤ 0x1D := by
    by_contra hgt
    rw [regOf_eq_none (by omega)] at hn
    cases hn
  exact hlisted n hle hstatus (by rw [hn]; rfl)

/-- Settles O50: a register is read from its field, and the list holds them all; an element likewise. -/
theorem hostReadChangesNothing : Obligations.HostReadChangesNothing := by
  unfold Obligations.HostReadChangesNothing
  intro s hb
  rw [registerValues_eq_map]
  refine ⟨fun p hp => ?_, fun n r hn => or_iff_not_imp_left.mpr fun hstatus => ?_,
    fun i hi => ?_, fun i hi => ?_, fun i hi => ?_, fun i hi => ?_⟩
  · obtain ⟨q, hq, rfl⟩ := List.mem_map.mp hp
    exact hostRd_of_register hb (regOf_of_mem_numberedRegisters q hq)
  · obtain ⟨q, hq, rfl⟩ := exists_mem_numberedRegisters hn hstatus
    exact ⟨_, List.mem_map_of_mem hq⟩
  · exact hostRdm_of_element hb spaceOf_txt hi
  · exact hostRdm_of_element hb spaceOf_grp hi
  · exact hostRdm_of_element hb spaceOf_bit hi
  · exact hostRdm_of_element hb spaceOf_smp hi

end Sys2Proof.Machine
end

section
/-! PROOFS. `RESET`, and what a write of `CMD` does in `IDLE` and in `ERROR` (45_control_ops.md R220, R221,
R224). -/

namespace Sys2Proof.Machine

variable {s : State} {c : Code}

theorem exec_reset (hb : s.seq ≠ .busy) : exec .reset s = .next s.softReset := by
  rw [exec, execReset, hostAccess_of_ne_busy _ hb]

/-- Settles O35: what `RESET` leaves is `softReset`, in both states that accept it. -/
theorem resetOperationCompletes : Obligations.ResetOperationCompletes := by
  unfold Obligations.ResetOperationCompletes
  exact fun _ hb => exec_reset hb

/-- A code written to `CMD` by the host, which fits its four bits. -/
theorem runMove_wr_cmd (c : Code) (hb : s.seq ≠ .busy) : runMove (.wr 0x00 c.toNat) s = cmdWrite c s := by
  have hv : c.toNat < 2 ^ Reg.cmd.width := c.isLt
  rw [runMove, hostWr, hostAccess_of_ne_busy _ hb, show regOf 0x00 = some .cmd from rfl]
  simp only [Reg.readOnly, Bool.false_eq_true, if_false, if_pos hv, if_true, BitVec.ofNat_toNat,
    BitVec.setWidth_eq]

theorem cmdWrite_error (hs : s.seq = .error) : cmdWrite c s = exec (decodeCode c) s := by
  rw [cmdWrite, hs]

theorem cmdWrite_idle_at_once (hs : s.seq = .idle) (hc : c = 0#4 ∨ 8#4 ≤ c) :
    cmdWrite c s = exec (decodeCode c) s := by
  rw [cmdWrite, hs]
  exact if_pos hc

theorem cmdWrite_idle_starts (hs : s.seq = .idle) (h0 : c ≠ 0#4) (h8 : c < 8#4) :
    cmdWrite c s = .next { s with seq := .busy, curOp := some c } := by
  rw [cmdWrite, hs]
  exact if_neg (not_or.mpr ⟨h0, BitVec.not_le.mpr h8⟩)

/-- The block's turn runs the operation on the state its start found (10_state.md R31). -/
theorem blockTurn_of_started (hs : s.seq = .idle) (hcur : s.curOp = none) :
    blockTurn { s with seq := .busy, curOp := some c } = exec (decodeCode c) s := by
  rw [blockTurn, ← hs, ← hcur]

/-- Settles O49: the start leaves the operands as they are, so the turn computes on them. -/
theorem commandWriteThenTurnIsOperation : Obligations.CommandWriteThenTurnIsOperation := by
  unfold Obligations.CommandWriteThenTurnIsOperation
  intro s c hs hcur
  rw [runMove_wr_cmd c (by simp [hs])]
  exact ⟨fun h0 h8 => ⟨cmdWrite_idle_starts hs h0 h8, blockTurn_of_started hs hcur⟩,
    cmdWrite_idle_at_once hs⟩

/-- In `ERROR` every operation but `RESET` is ignored (60_exceptions.md R248). -/
theorem exec_error {i : Instr} (hs : s.seq = .error) (hop : i.code?.isSome = true) (hreset : i ≠ .reset) :
    exec i s = .next s := by
  cases i with
  | reset => exact absurd rfl hreset
  | addressCw | messageCw | idleCw | syncCw | preambleWord => cases hop
  | _ =>
    simp only [exec, execBch, execAddrcw, execMsgcw, execPacka, execPackn, execAsm, execMod, execUnassigned,
      runOp_error _ _ hs]

/-- Settles O37: a write of `CMD` in `ERROR` is the operation of its code, and only code 0 is `RESET`'s. -/
theorem errorIgnoresCommands : Obligations.ErrorIgnoresCommands := by
  unfold Obligations.ErrorIgnoresCommands
  intro s hs
  have hwrite (c : Code) : runMove (.wr 0x00 c.toNat) s = exec (decodeCode c) s := by
    rw [runMove_wr_cmd c (by simp [hs]), cmdWrite_error hs]
  refine ⟨fun i hop hreset => exec_error hs hop hreset, fun c hc => ?_, hwrite 0⟩
  have hcode : (decodeCode c).code? = some c := (decodeCode_eq_iff c _).mp rfl
  have hreset : decodeCode c ≠ .reset := fun h => hc (Option.some.inj (hcode.symm.trans (h ▸ rfl)))
  rw [hwrite, exec_error hs (by rw [hcode]; rfl) hreset]

end Sys2Proof.Machine
end

section
/-! PROOFS. The canonical form of a memory is unique, so elements written one after the other are the block write,
and a wire word is the host's 33 writes (45_control_ops.md R222; log 13). -/

namespace Sys2Proof.Machine

/-! ### The canonical form is unique (log 6) -/

section
variable {α : Type} {cap : Nat}

theorem Mem.wfFrom_cons {lo i : Nat} {v : α} {m : Mem α} :
    Mem.wfFrom cap lo ((i, v) :: m) = true ↔ lo ≤ i ∧ i < cap ∧ Mem.wfFrom cap (i + 1) m = true := by
  simp [Mem.wfFrom, and_assoc]

/-- A canonical memory from `lo` on lists nothing below. -/
theorem Mem.get?_of_lt_wfFrom {lo k : Nat} {m : Mem α} (h : Mem.wfFrom cap lo m = true) (hk : k < lo) :
    Mem.get? m k = none := by
  induction m generalizing lo with
  | nil => rfl
  | cons c m ih =>
    obtain ⟨i, v⟩ := c
    obtain ⟨hlo, -, hm⟩ := Mem.wfFrom_cons.mp h
    rw [Mem.get?_cons, if_neg (by omega), ih hm (by omega)]

/-- Hence the first cell is the least element listed. -/
theorem Mem.le_of_get?_cons {lo i k : Nat} {v w : α} {m : Mem α}
    (h : Mem.wfFrom cap lo ((i, v) :: m) = true) (hk : Mem.get? ((i, v) :: m) k = some w) : i ≤ k := by
  by_contra hlt
  obtain ⟨-, -, hm⟩ := Mem.wfFrom_cons.mp h
  rw [Mem.get?_cons, if_neg (by omega), Mem.get?_of_lt_wfFrom hm (by omega)] at hk
  cases hk

theorem Mem.get?_cons_self (i : Nat) (v : α) (m : Mem α) : Mem.get? ((i, v) :: m) i = some v := if_pos rfl

theorem Mem.eq_of_get?_of_wfFrom {lo lo' : Nat} {m m' : Mem α} (h : Mem.wfFrom cap lo m = true)
    (h' : Mem.wfFrom cap lo' m' = true) (hget : ∀ k, Mem.get? m k = Mem.get? m' k) : m = m' := by
  induction m generalizing lo lo' m' with
  | nil =>
    cases m' with
    | nil => rfl
    | cons c' m' => cases (hget c'.1).trans (Mem.get?_cons_self c'.1 c'.2 m')
  | cons c m ih =>
    obtain ⟨i, v⟩ := c
    cases m' with
    | nil => cases (Mem.get?_cons_self i v m).symm.trans (hget i)
    | cons c' m' =>
      obtain ⟨i', v'⟩ := c'
      have hfirst : i' ≤ i := Mem.le_of_get?_cons h' ((hget i).symm.trans (Mem.get?_cons_self i v m))
      have hfirst' : i ≤ i' := Mem.le_of_get?_cons h ((hget i').trans (Mem.get?_cons_self i' v' m'))
      obtain rfl : i = i' := Nat.le_antisymm hfirst' hfirst
      have hvalue := hget i
      rw [Mem.get?_cons_self, Mem.get?_cons_self] at hvalue
      obtain rfl := Option.some.inj hvalue
      obtain ⟨-, -, hm⟩ := Mem.wfFrom_cons.mp h
      obtain ⟨-, -, hm'⟩ := Mem.wfFrom_cons.mp h'
      refine congrArg _ (ih hm hm' fun k => ?_)
      by_cases hk : i = k
      · rw [Mem.get?_of_lt_wfFrom hm (by omega), Mem.get?_of_lt_wfFrom hm' (by omega)]
      · simpa only [Mem.get?_cons, if_neg hk] using hget k

/-- Two canonical memories that list the same elements are one. -/
theorem Mem.eq_of_get? {m m' : Mem α} (h : Mem.wf cap m = true) (h' : Mem.wf cap m' = true)
    (hget : ∀ k, Mem.get? m k = Mem.get? m' k) : m = m' :=
  Mem.eq_of_get?_of_wfFrom h h' hget

theorem Mem.writeBlock_nil {b : Nat} {m : Mem α} (h : Mem.wf cap m = true) (hb : b ≤ cap) :
    Mem.writeBlock m b [] = m :=
  Mem.eq_of_get? (Mem.wf_writeBlock [] h hb) h fun k => by
    rw [Mem.get?_writeBlock, if_neg (by simp)]

theorem Mem.writeBlock_singleton {i : Nat} {m : Mem α} (v : α) (h : Mem.wf cap m = true) (hi : i < cap) :
    Mem.writeBlock m i [v] = Mem.write m i v :=
  Mem.eq_of_get? (Mem.wf_writeBlock [v] h hi) (Mem.wf_write v h hi) fun k => by
    rw [Mem.get?_writeBlock, Mem.get?_write]
    by_cases hk : k = i
    · subst hk; simp
    · rw [if_neg (by simp; omega), if_neg hk]

/-- The element after a block, written, makes the block one longer. -/
theorem Mem.write_writeBlock {b : Nat} {m : Mem α} (vs : List α) (v : α) (h : Mem.wf cap m = true)
    (hb : b + vs.length < cap) :
    Mem.write (Mem.writeBlock m b vs) (b + vs.length) v = Mem.writeBlock m b (vs ++ [v]) := by
  rw [← Mem.writeBlock_singleton v (Mem.wf_writeBlock vs h hb.le) hb, Mem.writeBlock_writeBlock]

end

/-! ### The host's writes of a word (45_control_ops.md R222) -/

variable {s : State}

theorem runMoves_append {ms : List HostMove} {t : State} (ms' : List HostMove)
    (h : runMoves ms s = .next t) : runMoves (ms ++ ms') s = runMoves ms' t := by
  induction ms generalizing s with
  | nil => cases h; rfl
  | cons m ms ih =>
    rw [List.cons_append, runMoves]
    rw [runMoves] at h
    cases hm : runMove m s with
    | next u => rw [hm] at h; exact ih h
    | fault r => rw [hm] at h; cases h
    | refused r => rw [hm] at h; cases h

theorem runMoves_singleton (m : HostMove) (s : State) : runMoves [m] s = runMove m s := by
  rw [runMoves]
  cases runMove m s <;> rfl

theorem runMove_wrm_bit {i : Nat} (b : Bit) (hb : s.seq ≠ .busy) (hi : i < Config.maxBits) :
    runMove (.wrm 2 i b.toNat) s = .next { s with bit := Mem.write s.bit i b } := by
  rw [runMove, hostWrm_of_element _ hb spaceOf_bit hi, State.memWrite_bit i b.isLt, BitVec.ofNat_toNat,
    BitVec.setWidth_eq]

/-- The writes of consecutive elements of `BIT` leave the block of their values. -/
theorem runMoves_wrm_bits (f : Nat → Bit) {b n : Nat} (hb : s.seq ≠ .busy) (hfit : b + n ≤ Config.maxBits)
    (hwf : Mem.wf Config.maxBits s.bit = true) :
    runMoves ((List.range n).map fun k => .wrm 2 (b + k) (f k).toNat) s
      = .next { s with bit := Mem.writeBlock s.bit b ((List.range n).map f) } := by
  induction n with
  | zero =>
    rw [List.range_zero, List.map_nil, List.map_nil, runMoves, Mem.writeBlock_nil (b := b) hwf hfit]
  | succ n ih =>
    have hlen : ((List.range n).map f).length = n := by simp
    have hblock := Mem.write_writeBlock (b := b) ((List.range n).map f) (f n) hwf (by omega)
    rw [hlen] at hblock
    rw [List.range_succ, List.map_append, runMoves_append _ (ih (by omega)), List.map_singleton,
      runMoves_singleton, runMove_wrm_bit (f n) (by exact hb) (by omega), hblock, List.map_append,
      List.map_singleton]

/-- Settles O45: 32 writes leave the bits of the word, the last one the count. -/
theorem wireWordIsHostWrites : Obligations.WireWordIsHostWrites := by
  unfold Obligations.WireWordIsHostWrites
  intro s i hi hb hfit hwf
  have hnbits : s.nbits.toNat + 32 < 2 ^ Reg.nbits.width := hfit.trans_lt (by decide)
  rw [exec_eq_placeWord hi, placeWord_of_fits _ hb hfit,
    runMoves_append _ (runMoves_wrm_bits (fun k => i.word.extractLsb' (31 - k) 1) hb hfit hwf),
    runMoves_singleton, runMove, hostWr_of_writable (r := .nbits) (by exact hb) rfl rfl (by decide) hnbits]
  rw [State.regWrite, BitVec.ofNat_add, BitVec.ofNat_toNat, BitVec.setWidth_eq]
  rfl

end Sys2Proof.Machine
end

section
/-! PROOFS. `ENCODE` is the pack operation of `TYPE`, `ASM` and `MOD` one after the other, so what it leaves is
what the three completions say (45_control_ops.md R226). -/

namespace Sys2Proof.Machine

variable {s t : State}

/-! ### The three operations in their order -/

theorem runMove_encode (s : State) :
    runMove .encode s = thenUnlessError (exec (if s.mtype = 0#1 then .packa else .packn) s) fun u =>
      thenUnlessError (exec .asm u) (exec .mod) := by
  rw [runMove, hostEncode]
  split <;> rfl

theorem thenUnlessError_of_error (k : State → Host.Outcome State Fault Refusal) (ht : t.seq = .error) :
    thenUnlessError (.next t) k = .next t := if_pos ht

theorem thenUnlessError_of_idle (k : State → Host.Outcome State Fault Refusal) (ht : t.seq = .idle) :
    thenUnlessError (.next t) k = k t := if_neg (by simp [ht])

/-- `ENCODE` answers what `MOD` answers, once the two operations before it have ended in `IDLE`. -/
theorem runMove_encode_of_idle {u v : State}
    (hpack : exec (if s.mtype = 0#1 then .packa else .packn) s = .next u) (hu : u.seq = .idle)
    (hasm : exec .asm u = .next v) (hv : v.seq = .idle) : runMove .encode s = exec .mod v := by
  rw [runMove_encode, hpack, thenUnlessError_of_idle _ hu, hasm, thenUnlessError_of_idle _ hv]

/-- Settles O58: what is left after an error is that operation's state; `MOD` writes neither groups nor bits,
`ASM` no groups. -/
theorem encodeStopsAtFirstError : Obligations.EncodeStopsAtFirstError := by
  unfold Obligations.EncodeStopsAtFirstError
  intro s t _
  refine ⟨fun hpack ht => ?_, fun u v hpack hu hasm hv hmod _ => ?_⟩
  · rw [runMove_encode, hpack, thenUnlessError_of_error _ ht]
  · obtain ⟨hgrp, hngrp⟩ := (exec_next hasm).groups_eq (by decide) (by decide)
    obtain ⟨hgrp', hngrp'⟩ := (exec_next hmod).groups_eq (by decide) (by decide)
    obtain ⟨hbit, hnbits⟩ := (exec_next hmod).bits_eq (by decide) rfl
    exact ⟨(runMove_encode_of_idle hpack hu hasm hv).trans hmod, hgrp'.trans hgrp,
      (hngrp' (by decide)).trans (hngrp (by decide)), hbit, hnbits (by decide)⟩

/-! ### A text that reaches the end -/

/-- `n` groups hold the text of `TYPE`, whose characters are all of its alphabet. -/
def State.LegalText (s : State) (n : Nat) : Prop :=
  (s.mtype = 0#1 → n = (7 * s.len.toNat + 19) / 20 ∧ ∀ i, i < s.len.toNat → isAlpha (s.txtAt i) = true)
    ∧ (s.mtype = 1#1 → n = (4 * s.len.toNat + 19) / 20
      ∧ ∀ i, i < s.len.toNat → isNumeric (s.txtAt i) = true)

/-- Such a text needs no more groups than `GRP` has (00_scope.md R8). -/
theorem State.LegalText.le_maxGrp {n : Nat} (htext : s.LegalText n) (hlen : s.len.toNat ≤ Config.maxChars) :
    n ≤ Config.maxGrp := by
  have hchars : Config.maxChars = 80 := rfl
  have hgrp : Config.maxGrp = 28 := rfl
  obtain ⟨halpha, hnum⟩ := htext
  obtain htype | htype := BitVec.eq_zero_or_eq_one s.mtype
  · have := (halpha htype).1
    omega
  · have := (hnum htype).1
    omega

/-- The pack operation of `TYPE` completes, whichever it is. -/
theorem exec_packByType {n : Nat} (hs : s.seq = .idle) (hlen : s.len.toNat ≤ Config.maxChars)
    (htext : s.LegalText n) :
    ∃ u, exec (if s.mtype = 0#1 then .packa else .packn) s = .next u
      ∧ u = { s with grp := u.grp, ngrp := u.ngrp }
      ∧ u.ngrp.toNat = n
      ∧ (∀ k j, k < u.ngrp.toNat → j < 20 → (u.grpAt k).getLsbD (19 - j)
          = if s.mtype = 0#1 then alphaStreamBit s (20 * k + j) else numStreamBit s (20 * k + j))
      ∧ ∀ k, u.ngrp.toNat ≤ k → u.grpAt k = s.grpAt k := by
  obtain ⟨halpha, hnum⟩ := htext
  obtain htype | htype := BitVec.eq_zero_or_eq_one s.mtype
  · obtain ⟨rfl, hlegal⟩ := halpha htype
    simp only [if_pos htype]
    exact packaCompletes s hs hlen fun i hi => (isAlpha_iff _).mp (hlegal i hi)
  · obtain ⟨rfl, hlegal⟩ := hnum htype
    have hne : s.mtype ≠ 0#1 := by simp [htype]
    simp only [if_neg hne]
    exact packnCompletes s hs hlen fun i hi => (isNumeric_iff _).mp (hlegal i hi)

/-- The number of batches is the least that holds the codewords (43_frame_assembler.md R179). -/
theorem batchCount_unique {ric : BitVec 21} {n nb : Nat} (hholds : 2 * (ric.toNat % 8) + 1 + n ≤ 16 * nb)
    (hleast : 16 * nb < 2 * (ric.toNat % 8) + 1 + n + 16) : nb = batchCount ric n := by
  rw [batchCount, addressSlot]
  omega

/-- The recurrence reads nothing that `MOD` writes. -/
theorem phaseAt_of_samples (s : State) (smp : Mem Sample) (nsamp : Count) (phase n : Nat) :
    phaseAt { s with smp := smp, nsamp := nsamp, phase := phase } n = phaseAt s n := by
  induction n with
  | zero => rfl
  | succ n ih => rw [phaseAt, ih]; rfl

/-- Settles O57: each operation finds the results of the one before it, and the frames of the three leave the
rest. -/
theorem encodeBuildsWholeTransmission : Obligations.EncodeBuildsWholeTransmission := by
  unfold Obligations.EncodeBuildsWholeTransmission
  intro s n hs hlen hcfg halpha hnum hroom
  have htext : s.LegalText n := ⟨halpha, hnum⟩
  obtain ⟨u, hpack, hu, rfl, hgroups, hgrpRest⟩ := exec_packByType hs hlen htext
  have hgrpFits : u.ngrp.toNat ≤ Config.maxGrp := htext.le_maxGrp hlen
  have huIdle : u.seq = .idle := by rw [hu]; exact hs
  obtain ⟨v, nb, hasm, hv, hholds, hleast, -, hthree, hnbits, hpre, hsync, hslot, hbitRest⟩ :=
    asmCompletes u huIdle hgrpFits
  obtain rfl := batchCount_unique hholds hleast
  have hvIdle : v.seq = .idle := by rw [hv]; exact huIdle
  have hvConfig : v.ValidConfig := by rw [hv, hu]; exact { hcfg with }
  have hbitsFit : v.nbits.toNat ≤ Config.maxBits := by
    have : Config.maxBits = 2208 := rfl
    omega
  have hric : u.ric = s.ric := by rw [hu]
  have hspb : v.cfgFs.toNat / v.cfgBaud.toNat = samplesPerBit s := by rw [hv, hu, samplesPerBit]
  obtain ⟨t, hmod, ht, hnsamp, hsmp, hphase, hsmpRest⟩ :=
    modCompletes v hvIdle hvConfig hbitsFit (by rwa [hspb, hnbits, hric])
  have hphaseAt : phaseAt t = phaseAt v := by rw [ht]; exact funext (phaseAt_of_samples v _ _ _)
  rw [← hphaseAt] at hsmp hphase
  have hencode : runMove .encode s = .next t := (runMove_encode_of_idle hpack huIdle hasm hvIdle).trans hmod
  -- With the three frames in place, what is said of an operation's results is said of the last state too.
  obtain ⟨grp, ngrp, rfl⟩ : ∃ grp ngrp, u = { s with grp := grp, ngrp := ngrp } := ⟨_, _, hu⟩
  obtain ⟨bit, nbits, rfl⟩ : ∃ bit nbits, v = { s with
    grp := grp, ngrp := ngrp, bit := bit, nbits := nbits } := ⟨_, _, hv⟩
  obtain ⟨smp, nsamp, phase, rfl⟩ : ∃ smp nsamp phase, t = { s with
    grp := grp, ngrp := ngrp, bit := bit, nbits := nbits, smp := smp, nsamp := nsamp, phase := phase } :=
    ⟨_, _, _, ht⟩
  exact ⟨_, _, _, hpack, hasm, hmod, hencode, rfl, rfl, hnbits, hnsamp.trans (congrArg (· * _) hnbits),
    hgroups, hpre, hsync, hslot, hsmp, hphase, hgrpRest, hbitRest, hsmpRest⟩

end Sys2Proof.Machine
end

section
/-! PROOFS. The errors an operation raises in `IDLE`: which check of its body fails, and that nothing but the error
record is written (60_exceptions.md R236 to R247). -/

namespace Sys2Proof.Machine

variable {s t : State}

/-! ### Error entry (60_exceptions.md R246) -/

theorem einfoOf_of_lt {n : Nat} (h : n < 2 ^ 32) : einfoOf n = BitVec.ofNat 32 n := if_pos h

theorem einfoOf_of_ge {n : Nat} (h : 2 ^ 32 ≤ n) : einfoOf n = Config.einfoWide n :=
  if_neg (Nat.not_lt.mpr h)

/-- A count fits `EINFO` as it is. -/
theorem einfoOf_toNat (c : Count) : einfoOf c.toNat = c := by
  rw [einfoOf_of_lt c.isLt, BitVec.ofNat_toNat, BitVec.setWidth_eq]

/-- An operation whose body raises an error writes the error record and nothing else. -/
theorem runOp_of_err {c : Code} {body : State → OpResult} {e : ErrCode} {n : Nat} {info : Count}
    (hs : s.seq = .idle) (hbody : body s = .err e n) (hinfo : einfoOf n = info) :
    runOp c body s = .next { s with seq := .error, ecode := e.number, einfo := info, eop := c } := by
  rw [runOp_idle _ _ hs, hbody, ← hinfo]
  rfl

/-! ### `PACKA` and `PACKN` (60_exceptions.md R238, R239) -/

section
variable {legal : Byte → Bool} (stream : List Byte → List Bit)

/-- The length is checked before any character is read (42_bit_packer.md R163). -/
theorem pack_of_too_long (hlong : Config.maxChars < s.len.toNat) :
    pack legal stream s = .err .len s.len.toNat := if_pos hlong

/-- The bad character the search finds is the one all before which are legal. -/
theorem findIdx?_text_of_first_bad {i : Nat} (hi : i < s.len.toNat) (hbad : legal (s.txtAt i) = false)
    (hfirst : ∀ j, j < i → legal (s.txtAt j) = true) :
    s.text.findIdx? (fun c => !legal c) = some i := by
  rw [List.findIdx?_eq_some_iff_getElem]
  refine ⟨by rwa [length_text], ?_, fun j hj => ?_⟩
  · simp [State.text, hbad]
  · simp [State.text, hfirst j hj]

theorem pack_of_first_bad {i : Nat} (hfit : s.len.toNat ≤ Config.maxChars) (hi : i < s.len.toNat)
    (hbad : legal (s.txtAt i) = false) (hfirst : ∀ j, j < i → legal (s.txtAt j) = true) :
    pack legal stream s = .err .char i := by
  rw [pack, if_neg (Nat.not_lt.mpr hfit), findIdx?_text_of_first_bad hi hbad hfirst]

end

/-- Settles O23: the length check fails whatever the alphabet, and `LEN` fits `EINFO`. -/
theorem packRefusesTooLongText : Obligations.PackRefusesTooLongText := by
  unfold Obligations.PackRefusesTooLongText
  intro s hs hlong
  exact ⟨runOp_of_err hs (pack_of_too_long streamAlpha hlong) (einfoOf_toNat _),
    runOp_of_err hs (pack_of_too_long (streamNum numTable) hlong) (einfoOf_toNat _)⟩

/-- Settles O24: the search stops at the least bad index, which is below `LEN` and so fits `EINFO`. -/
theorem packReportsFirstBadCharacter : Obligations.PackReportsFirstBadCharacter := by
  unfold Obligations.PackReportsFirstBadCharacter
  intro s i hs hfit hi
  have hinfo : einfoOf i = BitVec.ofNat 32 i := einfoOf_of_lt (hi.trans s.len.isLt)
  refine ⟨fun hbad hfirst => ?_, fun hbad hfirst => ?_⟩
  · have hbad : isAlpha (s.txtAt i) = false := Bool.eq_false_iff.mpr (mt (isAlpha_iff _).mp hbad)
    have hfirst (j : Nat) (hj : j < i) := (isAlpha_iff (s.txtAt j)).mpr (hfirst j hj)
    exact runOp_of_err hs (pack_of_first_bad streamAlpha hfit hi hbad hfirst) hinfo
  · exact runOp_of_err hs (pack_of_first_bad (streamNum numTable) hfit hi hbad hfirst) hinfo

/-! ### `ASM` (60_exceptions.md R241) -/

theorem assemble_of_too_many_groups (hmany : Config.maxGrp < s.ngrp.toNat) :
    assemble s = .err .cap s.ngrp.toNat := if_pos hmany

/-- Settles O26: the group count is the one check of `ASM`, and `NGRP` fits `EINFO`. -/
theorem asmRefusesTooManyGroups : Obligations.AsmRefusesTooManyGroups := by
  unfold Obligations.AsmRefusesTooManyGroups
  intro s hs hmany
  exact runOp_of_err hs (assemble_of_too_many_groups hmany) (einfoOf_toNat _)

/-! ### `MOD` (60_exceptions.md R243, R245) -/

theorem toNat_ne_zero {w : Nat} {v : BitVec w} (h : v ≠ 0) : v.toNat ≠ 0 :=
  BitVec.toNat_ne.mp h

theorem configCheck_of_unwritten
    (hwritten : (s.cfgv.baud && s.cfgv.dev && s.cfgv.invert && s.cfgv.fs) = false) :
    configCheck s = some 1 := by
  rw [configCheck, hwritten]
  rfl

section
variable (hwritten : (s.cfgv.baud && s.cfgv.dev && s.cfgv.invert && s.cfgv.fs) = true)
include hwritten

theorem configCheck_of_baud_zero (hbaud : s.cfgBaud = 0) : configCheck s = some 2 := by
  simp [configCheck, hwritten, hbaud]

theorem configCheck_of_fs_zero (hbaud : s.cfgBaud ≠ 0) (hfs : s.cfgFs = 0) : configCheck s = some 3 := by
  simp [configCheck, hwritten, toNat_ne_zero hbaud, hfs]

theorem configCheck_of_not_multiple (hbaud : s.cfgBaud ≠ 0) (hfs : s.cfgFs ≠ 0)
    (hmod : s.cfgFs.toNat % s.cfgBaud.toNat ≠ 0) : configCheck s = some 4 := by
  simp [configCheck, hwritten, toNat_ne_zero hbaud, toNat_ne_zero hfs, hmod]

end

section
variable {cap : Nat}

theorem modulate_of_failed_check {k : Nat} (hcheck : configCheck s = some k) :
    modulate cap s = .err .cfg k := by
  rw [modulate, hcheck]

theorem modulate_of_too_many_bits (hcfg : s.ValidConfig) (hbits : Config.maxBits < s.nbits.toNat) :
    modulate cap s = .err .cap s.nbits.toNat := by
  rw [modulate, hcfg.configCheck_eq_none]
  exact if_pos hbits

theorem modulate_of_too_many_samples (hcfg : s.ValidConfig) (hbits : s.nbits.toNat ≤ Config.maxBits)
    (hsamples : cap < s.nbits.toNat * s.spb) : modulate cap s = .err .cap (s.nbits.toNat * s.spb) := by
  rw [modulate, hcfg.configCheck_eq_none]
  exact (if_neg (Nat.not_lt.mpr hbits)).trans (if_pos hsamples)

end

/-- Settles O33: each check that fails after those before it have passed is the one `MOD` reports. -/
theorem modReportsFirstFailedCheck : Obligations.ModReportsFirstFailedCheck := by
  unfold Obligations.ModReportsFirstFailedCheck
  intro s hs
  have hraise {k : Nat} (hcheck : configCheck s = some k) (hk : k < 2 ^ 32) :
      exec .mod s = .next { s with seq := .error, ecode := 4, einfo := BitVec.ofNat 32 k, eop := 0x7 } :=
    runOp_of_err hs (modulate_of_failed_check hcheck) (einfoOf_of_lt hk)
  exact ⟨fun hwritten => hraise (configCheck_of_unwritten hwritten) (by decide), fun hwritten =>
    ⟨fun hbaud => hraise (configCheck_of_baud_zero hwritten hbaud) (by decide),
      fun hbaud hfs => hraise (configCheck_of_fs_zero hwritten hbaud hfs) (by decide),
      fun hbaud hfs hmod => hraise (configCheck_of_not_multiple hwritten hbaud hfs hmod) (by decide)⟩⟩

/-- Settles O34: the bit count fits `EINFO`; a sample count above `MAX_SAMP` does not (log 12). -/
theorem modRefusesCountsAboveCapacity : Obligations.ModRefusesCountsAboveCapacity := by
  unfold Obligations.ModRefusesCountsAboveCapacity
  intro s hs hcfg
  refine ⟨fun hbits => ?_, fun hbits hsamples => ?_⟩
  · exact runOp_of_err hs (modulate_of_too_many_bits hcfg hbits) (einfoOf_toNat _)
  · have hwide : 2 ^ 32 ≤ s.nbits.toNat * s.spb := Nat.le_of_pred_lt hsamples
    exact runOp_of_err hs (modulate_of_too_many_samples hcfg hbits hsamples) (einfoOf_of_ge hwide)

/-! ### Unassigned codes (60_exceptions.md R242) -/

theorem toNat_unassigned (c : BitVec 3) : (1#1 ++ c).toNat = 8 + c.toNat := by
  revert c
  decide

theorem ofNat_unassigned (c : BitVec 3) : BitVec.ofNat 4 (8 + c.toNat) = 1#1 ++ c := by
  rw [← toNat_unassigned]
  exact BitVec.ofNat_toNat ..

/-- Settles O36: the body raises `E_OP` at once, and so does a write of the code, which starts nothing. -/
theorem unassignedCodeRaisesOpError : Obligations.UnassignedCodeRaisesOpError := by
  unfold Obligations.UnassignedCodeRaisesOpError
  intro s c hs
  constructor
  · have hinfo : einfoOf (1#1 ++ c).toNat = BitVec.ofNat 32 (8 + c.toNat) := by
      rw [toNat_unassigned, einfoOf_of_lt (by omega)]
    rw [ofNat_unassigned]
    exact runOp_of_err (body := fun _ => .err .op (1#1 ++ c).toNat) hs rfl hinfo
  · have hcode : 8#4 ≤ 1#1 ++ c := by
      rw [BitVec.le_def, toNat_unassigned]
      exact Nat.le_add_right ..
    rw [← toNat_unassigned, runMove_wr_cmd _ (by simp [hs]), cmdWrite_idle_at_once hs (.inr hcode),
      (decodeCode_eq_iff _ (.unassigned c)).mpr rfl]

/-! ### What an operation that ends leaves (60_exceptions.md R241, R247) -/

theorem toNat_ofNat_le_of_le {n m : Nat} (h : n ≤ m) : (BitVec.ofNat 32 n).toNat ≤ m :=
  (Nat.mod_le _ _).trans h

/-- What a pack operation or `ASM` counts when it ends is what its unit built. -/
theorem Executes.counts_fit {i : Instr} (h : Executes s i t) (hs : s.seq = .idle) (ht : t.seq = .idle) :
    (i = .packa → t.ngrp.toNat ≤ Config.maxGrp) ∧ (i = .packn → t.ngrp.toNat ≤ Config.maxGrp)
      ∧ (i = .asm → t.nbits.toNat ≤ Config.maxBits) := by
  cases h with
  | ignored _ seqError => cases hs.symm.trans seqError
  | raised => cases ht
  | packa _ lenFits =>
    have hgroups := length_groups_streamAlpha_le (text := s.text) (by simpa using lenFits)
    exact ⟨fun _ => toNat_ofNat_le_of_le hgroups, nofun, nofun⟩
  | packn _ lenFits =>
    have hgroups := length_groups_streamNum_le numTable (text := s.text) (by simpa using lenFits)
    exact ⟨nofun, fun _ => toNat_ofNat_le_of_le hgroups, nofun⟩
  | asm _ groupsFit =>
    have hbits := length_transmission_le s.ric s.func (g := s.groupList) (by simpa using groupsFit)
    exact ⟨nofun, nofun, fun _ => toNat_ofNat_le_of_le hbits⟩
  | placed wireWord => refine ⟨?_, ?_, ?_⟩ <;> (rintro rfl; cases wireWord)
  | _ => exact ⟨nofun, nofun, nofun⟩

/-- Settles O27: the capacities hold the longest text and the longest transmission (00_scope.md R8). -/
theorem countsLeftByOperationsFit : Obligations.CountsLeftByOperationsFit := by
  unfold Obligations.CountsLeftByOperationsFit
  intro s t hs ht
  exact ⟨fun h => ((exec_next h).counts_fit hs ht).1 rfl, fun h => ((exec_next h).counts_fit hs ht).2.1 rfl,
    fun h => ((exec_next h).counts_fit hs ht).2.2 rfl⟩

/-- Settles O38: from `IDLE`, `Executes` reaches `ERROR` by `State.raise` alone. -/
theorem errorsArePrecise : Obligations.ErrorsArePrecise := by
  unfold Obligations.ErrorsArePrecise
  intro s t i hs h ht
  cases exec_next h with
  | raised => rfl
  | reset => cases ht
  | _ => cases hs.symm.trans ht

end Sys2Proof.Machine
end

section
/-! PROOFS. What a move of the host or the block does to `STATUS.STATE` and the error record, said once
(`MoveDoes`, `runMove_next`): the error stays until a reset, and `E_ENCODE` is never raised (60_exceptions.md
R240, R248). -/

namespace Sys2Proof.Machine

variable {s t : State} {m : HostMove} {i : Instr}

/-! ### What a move that answers a next state did -/

/-- `t` has the sequencer state and the error record of `s`. -/
structure State.SameError (s t : State) : Prop where
  seq : t.seq = s.seq
  ecode : t.ecode = s.ecode
  einfo : t.einfo = s.einfo
  eop : t.eop = s.eop

theorem State.SameError.refl (s : State) : s.SameError s := ⟨rfl, rfl, rfl, rfl⟩

/-- `MoveDoes s m t`: what `runMove m s`, when it answers `t`, had run of the block. -/
inductive MoveDoes (s : State) : HostMove → State → Prop
  /-- A host access, or a turn of a block that is not busy, that ran no operation. -/
  | access {m : HostMove} {t : State} (same : s.SameError t) : MoveDoes s m t
  | instr {bs : List Byte} {i : Instr} {t : State} (decoded : decode bs = .ok i) (ran : Executes s i t) :
      MoveDoes s (.instr bs) t
  /-- A write of `CMD` that has its effect at once, or is ignored in `ERROR` (45_control_ops.md R220). -/
  | command (c : Code) {t : State} (ran : Executes s (decodeCode c) t) : MoveDoes s (.wr 0x00 c.toNat) t
  | start (c : Code) (seqIdle : s.seq = .idle) :
      MoveDoes s (.wr 0x00 c.toNat) { s with seq := .busy, curOp := some c }
  /-- The end of the operation in progress (log 3). -/
  | turn {c : Code} {t : State} (inProgress : s.curOp = some c)
      (ran : Executes { s with seq := .idle, curOp := none } (decodeCode c) t) : MoveDoes s .blockTurn t
  | encode {t : State} (ran : runMove .encode s = .next t) : MoveDoes s .encode t
  | hardReset : MoveDoes s .hardReset s.hardReset

theorem moveDoes_of_cmdWrite {c : Code} (h : cmdWrite c s = .next t) :
    MoveDoes s (.wr 0x00 c.toNat) t := by
  obtain ⟨-, h⟩ | ⟨-, -, h⟩ | ⟨hi, -, -, rfl⟩ := cmdWrite_next h
  · exact .command c (exec_next h)
  · exact .command c (exec_next h)
  · exact .start c hi

theorem moveDoes_of_hostWr {n v : Nat} (h : hostWr n v s = .next t) : MoveDoes s (.wr n v) t := by
  obtain ⟨-, r, hr, ⟨-, rfl⟩ | ⟨rfl, hv, hcmd⟩ | ⟨-, -, -, rfl⟩⟩ := hostWr_next h
  · exact .access (.refl t)
  · obtain rfl := regOf_eq_cmd.mp hr
    have hcode : (BitVec.ofNat 4 v).toNat = v := Nat.mod_eq_of_lt hv
    have hmove := moveDoes_of_cmdWrite hcmd
    rwa [hcode] at hmove
  · obtain ⟨hseq, hecode, heinfo, heop⟩ := regWrite_error s r v
    exact .access ⟨hseq, hecode, heinfo, heop⟩

theorem moveDoes_of_hostWrm {n k v : Nat} (h : hostWrm n k v s = .next t) : MoveDoes s (.wrm n k v) t := by
  obtain ⟨-, ⟨-, -, -, rfl⟩ | ⟨-, -, -, rfl⟩ | ⟨-, -, -, rfl⟩ | ⟨-, -, rfl⟩⟩ := hostWrm_next h <;>
    exact .access ⟨rfl, rfl, rfl, rfl⟩

theorem moveDoes_of_blockTurn (h : blockTurn s = .next t) : MoveDoes s .blockTurn t := by
  obtain ⟨c, hc, h⟩ | ⟨-, rfl⟩ := blockTurn_next h
  · exact .turn hc (exec_next h)
  · exact .access (.refl t)

/-- Every next state that `runMove` answers is one of `MoveDoes`. -/
theorem runMove_next (h : runMove m s = .next t) : MoveDoes s m t := by
  cases m with
  | instr bs =>
    obtain ⟨i, hd, h⟩ := fetchRun_next h
    exact .instr hd (exec_next h)
  | wr n v => exact moveDoes_of_hostWr h
  | wrm n k v => exact moveDoes_of_hostWrm h
  | rd n =>
    obtain ⟨r, -, rfl⟩ := hostRd_next h
    exact .access ⟨rfl, rfl, rfl, rfl⟩
  | rdm n k =>
    obtain ⟨sp, -, -, rfl⟩ := hostRdm_next h
    exact .access ⟨rfl, rfl, rfl, rfl⟩
  | txt chars =>
    obtain ⟨-, -, rfl⟩ := hostTxt_next h
    exact .access ⟨rfl, rfl, rfl, rfl⟩
  | encode => exact .encode h
  | blockTurn => exact moveDoes_of_blockTurn h
  | hardReset => cases h; exact .hardReset

/-- A step is the first move of the program, or the block's turn where none is left (log 1). -/
theorem step_next (h : step s = .next t) :
    (s.prog = [] ∧ MoveDoes s .blockTurn t) ∨
      ∃ m ms, s.prog = m :: ms ∧ MoveDoes { s with prog := ms } m t := by
  cases hprog : s.prog with
  | nil => exact .inl ⟨rfl, moveDoes_of_blockTurn ((step_nil hprog).symm.trans h)⟩
  | cons m ms => exact .inr ⟨m, ms, rfl, runMove_next ((step_cons hprog).symm.trans h)⟩

/-! ### The error state (60_exceptions.md R248) -/

/-- `t` is in `IDLE` with the error record zero. -/
structure State.ErrorCleared (t : State) : Prop where
  seq : t.seq = .idle
  ecode : t.ecode = 0
  einfo : t.einfo = 0
  eop : t.eop = 0

/-- The moves that leave `ERROR`: a hardware reset, a write of `RESET`'s code to `CMD`, `RESET` as `OP`. -/
def HostMove.Clears (m : HostMove) : Prop :=
  m = .hardReset ∨ m = .wr 0x00 0 ∨ ∃ bs, m = .instr bs ∧ decode bs = .ok .reset

/-- In `ERROR` every instruction but `RESET` keeps the error: an operation is ignored, a wire word placed. -/
theorem Executes.sameError_or_reset (h : Executes s i t) (hs : s.seq = .error) :
    s.SameError t ∨ (t.ErrorCleared ∧ i = .reset) := by
  cases h with
  | ignored => exact .inl (.refl s)
  | placed => exact .inl ⟨rfl, rfl, rfl, rfl⟩
  | reset => exact .inr ⟨⟨rfl, rfl, rfl, rfl⟩, rfl⟩
  | raised _ _ seqIdle | mod seqIdle => cases hs.symm.trans seqIdle
  | bch seqIdle | addrcw seqIdle | msgcw seqIdle => cases hs.symm.trans seqIdle
  | packa seqIdle | packn seqIdle | asm seqIdle => cases hs.symm.trans seqIdle

/-- `ENCODE` stops at its pack operation, which is ignored. -/
theorem runMove_encode_of_error (hs : s.seq = .error) : runMove .encode s = .next s := by
  have hpack : exec (if s.mtype = 0#1 then .packa else .packn) s = .next s := by
    split <;> exact exec_error hs rfl (by decide)
  rw [runMove_encode, hpack, thenUnlessError_of_error _ hs]

/-- By `hcur` the block's turn ends no operation. -/
theorem MoveDoes.sameError_or_clears (h : MoveDoes s m t) (hs : s.seq = .error) (hcur : s.curOp = none) :
    s.SameError t ∨ (t.ErrorCleared ∧ m.Clears) := by
  cases h with
  | access same => exact .inl same
  | instr decoded ran =>
    obtain hsame | ⟨hcleared, rfl⟩ := ran.sameError_or_reset hs
    · exact .inl hsame
    · exact .inr ⟨hcleared, .inr (.inr ⟨_, rfl, decoded⟩)⟩
  | command c ran =>
    obtain hsame | ⟨hcleared, hreset⟩ := ran.sameError_or_reset hs
    · exact .inl hsame
    · obtain rfl : 0#4 = c := Option.some.inj ((decodeCode_eq_iff c .reset).mp hreset)
      exact .inr ⟨hcleared, .inr (.inl rfl)⟩
  | start _ seqIdle => cases hs.symm.trans seqIdle
  | turn inProgress => cases hcur.symm.trans inProgress
  | encode ran =>
    cases (runMove_encode_of_error hs).symm.trans ran
    exact .inl (.refl s)
  | hardReset => exact .inr ⟨⟨rfl, rfl, rfl, rfl⟩, .inl rfl⟩

/-- Settles O39: by the invariant no operation is in progress in `ERROR`, so the block's turn keeps it too. -/
theorem errorStateIsSticky : Obligations.ErrorStateIsSticky := by
  unfold Obligations.ErrorStateIsSticky
  intro s t hinv hs h
  have hcur : s.curOp = none := hinv.curOp_eq_none (by simp [hs])
  obtain ⟨-, hmove⟩ | ⟨m, ms, hprog, hmove⟩ := step_next h
  · obtain ⟨hseq, hecode, heinfo, heop⟩ | ⟨-, hclears⟩ := hmove.sameError_or_clears hs hcur
    · exact .inl ⟨hseq.trans hs, hecode, heinfo, heop⟩
    · simp [HostMove.Clears] at hclears
  · obtain ⟨hseq, hecode, heinfo, heop⟩ | ⟨⟨hseq, hecode, heinfo, heop⟩, hclears⟩ :=
      hmove.sameError_or_clears hs hcur
    · exact .inl ⟨hseq.trans hs, hecode, heinfo, heop⟩
    · refine .inr ⟨hseq, hecode, heinfo, heop, ms, ?_⟩
      obtain rfl | rfl | ⟨bs, rfl, hd⟩ := hclears
      · exact .inl hprog
      · exact .inr (.inl hprog)
      · exact .inr (.inr ⟨bs, hprog, hd⟩)

/-! ### `E_ENCODE` (60_exceptions.md R240) -/

theorem ErrCode.number_ne_encode {e : ErrCode} (he : e ≠ .encode) : e.number ≠ 3#4 := by
  cases e with
  | encode => exact absurd rfl he
  | _ => decide

theorem Executes.ecode_ne_encode (h : Executes s i t) (hs : s.ecode ≠ 3#4) : t.ecode ≠ 3#4 := by
  cases h with
  | raised _ _ _ notEncode => exact ErrCode.number_ne_encode notEncode
  | reset => exact nofun
  | _ => exact hs

/-- `ENCODE` is up to three instructions, none of which raises `E_ENCODE`. -/
theorem runMove_encode_ecode_ne_encode (h : runMove .encode s = .next t) (hs : s.ecode ≠ 3#4) :
    t.ecode ≠ 3#4 := by
  rw [runMove_encode] at h
  obtain ⟨u, hpack, h⟩ := thenUnlessError_next h
  have hu := (exec_next hpack).ecode_ne_encode hs
  obtain ⟨-, rfl⟩ | ⟨-, h⟩ := h
  · exact hu
  obtain ⟨v, hasm, h⟩ := thenUnlessError_next h
  have hv := (exec_next hasm).ecode_ne_encode hu
  obtain ⟨-, rfl⟩ | ⟨-, hmod⟩ := h
  · exact hv
  · exact (exec_next hmod).ecode_ne_encode hv

theorem MoveDoes.ecode_ne_encode (h : MoveDoes s m t) (hs : s.ecode ≠ 3#4) : t.ecode ≠ 3#4 := by
  cases h with
  | access same => rwa [same.ecode]
  | instr _ ran => exact ran.ecode_ne_encode hs
  | command _ ran => exact ran.ecode_ne_encode hs
  | start => exact hs
  | turn _ ran => exact ran.ecode_ne_encode hs
  | encode ran => exact runMove_encode_ecode_ne_encode ran hs
  | hardReset => exact nofun

/-- Settles O40: no move brings the code of `E_ENCODE` into a record that does not hold it. -/
theorem encodeErrorIsNeverRaised : Obligations.EncodeErrorIsNeverRaised := by
  unfold Obligations.EncodeErrorIsNeverRaised
  intro s t h ht
  by_contra hs
  obtain ⟨-, hmove⟩ | ⟨m, ms, -, hmove⟩ := step_next h
  · exact hmove.ecode_ne_encode hs ht
  · exact hmove.ecode_ne_encode hs ht

end Sys2Proof.Machine
end

section
/-! PROOFS. A busy block: every instruction and every host access but the read of `STATUS` passes one of the two
guards, `runOp` and `hostAccess`, and both refuse (70_reset_and_hazards.md R283). -/

namespace Sys2Proof.Machine

variable {s : State}

/-- An operation is started by `runOp`; `RESET` and the placing of a wire word are host accesses. -/
theorem exec_busy (i : Instr) (hs : s.seq = .busy) : exec i s = .refused .hostAccessWhileBusy := by
  cases i with
  | reset => rw [exec, execReset, hostAccess_busy _ hs]
  | addressCw | messageCw | idleCw | syncCw | preambleWord =>
    rw [exec_eq_placeWord rfl, placeWord, hostAccess_busy _ hs]
  | _ =>
    simp only [exec, execBch, execAddrcw, execMsgcw, execPacka, execPackn, execAsm, execMod, execUnassigned,
      runOp_busy _ _ hs]

theorem hostRd_busy {n : Nat} (hs : s.seq = .busy) (hn : n ≠ 0x01) :
    hostRd n s = .refused .hostAccessWhileBusy := by
  rw [hostRd, if_neg hn, hostAccess_busy _ hs]

theorem thenUnlessError_of_refused (r : Refusal) (k : State → Host.Outcome State Fault Refusal) :
    thenUnlessError (.refused r) k = .refused r := rfl

/-- `ENCODE` is refused at its first operation, the pack operation of `TYPE`. -/
theorem runMove_encode_busy (hs : s.seq = .busy) :
    runMove .encode s = .refused .hostAccessWhileBusy := by
  rw [runMove_encode, exec_busy _ hs, thenUnlessError_of_refused]

/-- Settles O47: each access is refused by the guard it passes; only the read of `STATUS` has none. -/
theorem busyBlockRefusesHostAccess : Obligations.BusyBlockRefusesHostAccess := by
  unfold Obligations.BusyBlockRefusesHostAccess
  intro s hs
  refine ⟨?instruction, ?write, ?read, ?memoryWrite, ?memoryRead, ?text, ?encode⟩
  case instruction => exact fun i => exec_busy i hs
  case write => intro n v; rw [runMove, hostWr, hostAccess_busy _ hs]
  case read => exact fun _ hn => hostRd_busy hs hn
  case memoryWrite => intro n i v; rw [runMove, hostWrm, hostAccess_busy _ hs]
  case memoryRead => intro n i; rw [runMove, hostRdm, hostAccess_busy _ hs]
  case text => intro cs; rw [runMove, hostTxt, hostAccess_busy _ hs]
  case encode => exact runMove_encode_busy hs

end Sys2Proof.Machine
end
